-- ==== Sys2Proof/Word.lean ====
section
/-! DEFINITION. The word types of the hardware (spec/00_scope.md R5, R6): every quantity software sees
is an unsigned bit vector of a fixed width. -/

namespace Sys2Proof

/-- Eight bits: a V register, DT, ST, a memory cell, the immediate `kk` (R5, R15, R21, R22). -/
abbrev Byte := BitVec 8

/-- Sixteen bits: an instruction word, PC, a stack cell (R5, R18, R20, R61). -/
abbrev Word := BitVec 16

/-- Twelve bits: the index register I and the address field `nnn` (R5, R17, R62). -/
abbrev Addr := BitVec 12

/-- Four bits: a register number, the fields `x`, `y`, `n`, a key number (R62, R26). -/
abbrev Nibble := BitVec 4

end Sys2Proof
end

