-- ==== Sys2Proof/Machine/Flags.lean ====
section
/-! DEFINITION. Every flag computation of the hardware. VF is the only flag (R16); six instructions write it:
8xy4, 8xy5, 8xy6, 8xy7, 8xyE (spec/43_alu.md) and Dxyn (spec/45_display.md). The unsigned results they go with are
here too (R152). -/

namespace Sys2Proof.Machine

open Sys2Proof

/-- A flag as the byte VF receives: 1 or 0. -/
def flagByte (b : Bool) : Byte := if b then 1 else 0

/-- The exact sum of two bytes, 0 to 510 (R147). -/
def exactSum (a b : Byte) : Nat := a.toNat + b.toNat

/-- ADD Vx,Vy: the carry, sum > 255 (R147). -/
def carryFlag (a b : Byte) : Bool := decide (exactSum a b > 255)

/-- SUB: the wrapped-difference test, Vx after the subtraction greater than Vx before it (R148). -/
def borrowFlag (before after : Byte) : Bool := decide (after.toNat > before.toNat)

/-- SUBN: Vy strictly greater than Vx (R150). -/
def greaterFlag (vy vx : Byte) : Bool := decide (vy.toNat > vx.toNat)

/-- SHR: bit 0, the bit shifted out (R149). -/
def lowBit (a : Byte) : Byte := a &&& 1

/-- SHL: bit 7, the bit shifted out (R151). -/
def highBit (a : Byte) : Byte := (a >>> 7) &&& 1

/-- DRW: a pixel that was set and is clear (R172). -/
def collides (old new : Bool) : Bool := old && !new

end Sys2Proof.Machine
end

