-- ==== Sys2Proof/Config.lean ====
section
/-! DEFINITION. The implementation parameters of spec/00_scope.md R5 that are numbers, and the one free value
of the hardware, the random byte. The font, which R5 leaves OPEN, is an argument of `initialize`
(Machine/Ops.lean); the colours of the screen export, OPEN too, are arguments of the read-out
(Machine/Display.lean). -/

namespace Sys2Proof

/-- `MEM_SIZE`: 4096 cells, addresses 0x000 to 0xFFF (R5, R22, R41; decision D1, log entry 3). -/
abbrev Config.memSize : Nat := 4096

/-- `STACK_SLOTS`: 16 cells, indexed 0 to 15 (R5, R20; decision D4, log entry 5). -/
abbrev Config.stackSlots : Nat := 16

/-- `DISP_W`: 64 columns (R5, R24). -/
abbrev Config.dispW : Nat := 64

/-- `DISP_H`: 32 rows (R5, R24). -/
abbrev Config.dispH : Nat := 32

/-- `NREG`: sixteen V registers (R5, R15). -/
abbrev Config.nReg : Nat := 16

/-- `NKEYS`: sixteen keys (R5, R23). -/
abbrev Config.nKeys : Nat := 16

/-- `ORIGIN`: where a program is loaded and where PC is after reset (R5, R33, R218). -/
abbrev Config.origin : Nat := 0x200

/-- `FONT_LEN`: the font is the 80 bytes at 0x000 (R5, R22, R48). -/
abbrev Config.fontLen : Nat := 80

/-- `random_byte()` (R34, R153, decision D10; log entry 8): the byte the k-th execution of RND draws.
FREE VALUE: an uninterpreted constant. Nothing constrains it, two draws are unrelated, and no proof can
learn a value of it. -/
opaque Config.randomByte : Nat → Byte

end Sys2Proof
end

