-- ==== Sys2Proof/Machine/State.lean ====
section
/-! DEFINITION. The machine state of spec/10_state.md R14, field for field, as plain data; the state after
reset (R33, spec/70_reset_and_hazards.md R216); and the reasons a transition can stop. -/

namespace Sys2Proof.Machine

open Sys2Proof

/-- MEM: the cells that differ from what `Memory.unlisted` (Machine/Memory.lean) says, in rising order of
address. Every other cell of 0x000 to 0xFFF reads as `Memory.unlisted` says (R22, R41; log entry 17). -/
abbrev Memory := List Host.Cell

/-- DISP[y][x], y in 0..31 from the top, x in 0..63 from the left; `true` is a set pixel (R24). -/
abbrev Display := Vector (Vector Bool Config.dispW) Config.dispH

/-- MODE (R25). `faulted` is the spec's own addition (decision D5; log entry 2). -/
inductive Mode where
  | running
  | awaitingKey
  | faulted
  deriving DecidableEq, Repr

/-- The cause held by FAULT (R27, R196): no fault, or one of the four fault codes. -/
inductive FaultCause where
  /-- No fault has been recorded (R27). -/
  | none
  /-- Code 1: a step in Running with PC > 0xFFE (R113, R196). -/
  | fetchBounds
  /-- Code 2: a data access would reach an address > 0xFFF (R47, R196). -/
  | memBounds
  /-- Code 3: CALL with SP = STACK_SLOTS - 1 (R129, R196). -/
  | stackOverflow
  /-- Code 4: RET with SP = 0 (R127, R196). -/
  | stackUnderflow
  deriving DecidableEq, Repr

/-- FAULT (R27, R28): the cause, the instruction's address, and the 16-bit instruction (0 for FetchBounds). -/
structure FaultRecord where
  cause : FaultCause
  addr : Word
  word : Word
  deriving DecidableEq, Repr

/-- The complete machine state (R14), and one field of the model's own (`draws`). -/
structure State where
  /-- V0 to VF (R15); VF is V[15], the flag register (R16). -/
  v : Vector Byte Config.nReg
  /-- I, the index register, 12 bits (R17). -/
  i : Addr
  /-- PC, 16 bits (R18; decision D2, log entry 4). -/
  pc : Word
  /-- SP, an 8-bit register that indexes the top of the stack; 0 is the empty stack (R19). -/
  sp : Byte
  /-- STACK, 16 cells of 16 bits (R20; decision D4, log entry 5). -/
  stack : Vector Word Config.stackSlots
  /-- DT, the delay timer (R21). -/
  dt : Byte
  /-- ST, the sound timer (R21). -/
  st : Byte
  /-- MEM, 4096 bytes (R22). -/
  mem : Memory
  /-- KEY: `true` is a pressed key (R23). -/
  keys : Vector Bool Config.nKeys
  /-- DISP (R24). -/
  disp : Display
  /-- MODE (R25). -/
  mode : Mode
  /-- KWREG, the target register of the key wait (R26). -/
  kwreg : Nibble
  /-- FAULT (R27). -/
  fault : FaultRecord
  /-- THE MODEL'S OWN FIELD, not the spec's: how many random bytes have been drawn. It selects the next value
  of the free `Config.randomByte` (R34, R153; log entry 8) and nothing else reads it. -/
  draws : Nat
  deriving DecidableEq, Repr

/-- The faults of the model's outcome type: a step that has no next state. The four faults of R196 are not
among them: each has a next state, with MODE = Faulted (R197). -/
inductive Fault where
  /-- Raised by RET where SP is 16 or more: it would read a stack cell that does not exist (R19, R20). SAFE: no
  state that `initialize` and any transitions lead to has such an SP (R32), and the model stops (log entry 18). -/
  | noStackCell
  deriving DecidableEq, Repr

/-- Why an instruction or a host operation is given no meaning. -/
inductive Refusal where
  /-- An instruction whose meaning is not written: raised by no arm of this model. SAFE. -/
  | notModelled (mnemonic : String)
  /-- Raised by every host operation but `initialize` on a machine that was never initialized (R33, decision
  D11; log entry 1). SAFE: nothing is claimed of such a machine. -/
  | notInitialized
  /-- Raised by `loadProgram` of more than 3584 bytes (R218, decision D11; log entry 19). SAFE. -/
  | programTooLong
  deriving DecidableEq, Repr

/-- The machine right after `initialize` with the default font (R33, R216): the font and the zeros of memory are
what unlisted cells read as. `draws` is the model's own (log entry 8); FAULT's addr and word are 0 by R28. -/
def State.reset : State where
  v := Vector.replicate Config.nReg 0
  i := 0
  pc := 0x200
  sp := 0
  stack := Vector.replicate Config.stackSlots 0
  dt := 0
  st := 0
  mem := []
  keys := Vector.replicate Config.nKeys false
  disp := Vector.replicate Config.dispH (Vector.replicate Config.dispW false)
  mode := .running
  kwreg := 0
  fault := ⟨.none, 0, 0⟩
  draws := 0

end Sys2Proof.Machine
end

