-- ==== Sys2Proof/Machine/Memory.lean ====
section
/-! DEFINITION. MEM (spec/20_memory.md): what an unlisted cell reads as, the read and the write of one byte, the
runs of bytes built from them in one place, and the canonical form. Every caller checks its range first (R47). -/

namespace Sys2Proof.Machine

open Sys2Proof

/-- FONT, the 80 font bytes (R5, R22): an argument of `initialize`. -/
abbrev Font := Vector Byte Config.fontLen

/-- The default of the FONT parameter, as R22 lists it: 16 glyphs of 5 bytes. PRESUMED: the spec marks the table
as general knowledge (G1, decision D12; log entry 6). -/
def fontTable : Font := #v[
  0xF0, 0x90, 0x90, 0x90, 0xF0,  -- 0
  0x20, 0x60, 0x20, 0x20, 0x70,  -- 1
  0xF0, 0x10, 0xF0, 0x80, 0xF0,  -- 2
  0xF0, 0x10, 0xF0, 0x10, 0xF0,  -- 3
  0x90, 0x90, 0xF0, 0x10, 0x10,  -- 4
  0xF0, 0x80, 0xF0, 0x10, 0xF0,  -- 5
  0xF0, 0x80, 0xF0, 0x90, 0xF0,  -- 6
  0xF0, 0x10, 0x20, 0x40, 0x40,  -- 7
  0xF0, 0x90, 0xF0, 0x90, 0xF0,  -- 8
  0xF0, 0x90, 0xF0, 0x10, 0xF0,  -- 9
  0xF0, 0x90, 0xF0, 0x90, 0x90,  -- A
  0xE0, 0x90, 0xE0, 0x90, 0xE0,  -- B
  0xF0, 0x80, 0x80, 0x80, 0xF0,  -- C
  0xE0, 0x90, 0x90, 0x90, 0xE0,  -- D
  0xF0, 0x80, 0xF0, 0x80, 0xF0,  -- E
  0xF0, 0x80, 0xF0, 0x80, 0x80]  -- F

/-- What a cell that no entry lists reads as: the contents after `initialize` with the default font, MEM[a] =
FONT[a] for a in 0..79 and 0 above (R22, R33, R48; log entry 17). -/
def Memory.unlisted (a : Nat) : Byte :=
  if h : a < Config.fontLen then fontTable[a] else 0

/-- `MemRead(a, 1)` (R7, R50). -/
def Memory.read : Memory → Nat → Byte
  | [], a => Memory.unlisted a
  | (k, b) :: m, a => if k = a then b else Memory.read m a

/-- The list without entries for `a`. -/
def Memory.erase : Memory → Nat → Memory
  | [], _ => []
  | (k, c) :: m, a => if k = a then Memory.erase m a else (k, c) :: Memory.erase m a

/-- The entry `(a, b)` put at its place in rising order. -/
def Memory.insert : Memory → Nat → Byte → Memory
  | [], a, b => [(a, b)]
  | (k, c) :: m, a, b => if a < k then (a, b) :: (k, c) :: m else (k, c) :: Memory.insert m a b

/-- `MemWrite(a, 1, b)` (R7, R50). It keeps the canonical form: a byte equal to what the unlisted cell reads as is
not listed. -/
def Memory.write (m : Memory) (a : Nat) (b : Byte) : Memory :=
  if b = Memory.unlisted a then Memory.erase m a else Memory.insert (Memory.erase m a) a b

/-- The bytes `bs` written to `a`, `a + 1`, …, in ascending order (R51). -/
def Memory.writeBytes (m : Memory) (a : Nat) : List Byte → Memory
  | [] => m
  | b :: bs => Memory.writeBytes (Memory.write m a b) (a + 1) bs

/-- `MemRead(a, 2)`: the byte at the lower address holds bits 15..8 (R7, R43). -/
def Memory.readWord (m : Memory) (a : Nat) : Word :=
  Memory.read m a ++ Memory.read m (a + 1)

/-- The canonical form: addresses strictly rising and inside 0x000..0xFFF (R41), and no entry equal to what the
unlisted cell reads as. -/
abbrev Memory.wf (m : Memory) : Prop :=
  m.Pairwise (fun c d => c.1 < d.1) ∧ ∀ c ∈ m, c.1 < Config.memSize ∧ c.2 ≠ Memory.unlisted c.1

end Sys2Proof.Machine
end

