-- ==== Sys2Proof/Machine/Operands.lean ====
section
/-! DEFINITION. The operand forms of the instruction set: a V register named by a field (R62, R64), I plus a small
constant offset (spec/44_index_memory.md, R46), a stack cell named by SP (R19), a key named by a field (R180), and
the instruction's address and the next one (R8). Immediates are used as they stand (R64). -/

namespace Sys2Proof.Machine

open Sys2Proof

/-- VF, the register that holds the flag (R16). -/
abbrev vf : Nibble := 15

/-- `V[x]` read (R7, R15). -/
def State.getV (s : State) (x : Nibble) : Byte := s.v[x.toNat]'x.isLt

/-- The effective address I + k, not reduced (R46). -/
def State.ea (s : State) (k : Nat) : Nat := s.i.toNat + k

/-- The bounds test of R47: is I + k, the last byte of an access, inside 0x000..0xFFF? -/
def State.inMem (s : State) (k : Nat) : Bool := decide (s.ea k < Config.memSize)

/-- `KEY[k]` (R7, R23), the key named by a 4-bit field. -/
def State.getKey (s : State) (k : Nibble) : Bool := s.keys[k.toNat]'k.isLt

/-- `STACK[SP]`, where that cell exists (R19, R20). -/
def State.stackTop (s : State) : Option Word := s.stack[s.sp.toNat]?

/-- The bytes V0, V1, …, Vx (R15, R165). -/
def State.firstV (s : State) (x : Nibble) : List Byte :=
  (List.range (x.toNat + 1)).map fun k => s.getV (BitVec.ofNat 4 k)

/-- The bytes MEM[I], …, MEM[I + k - 1] (R46, R51). -/
def State.bytesAtI (s : State) (k : Nat) : List Byte :=
  (List.range k).map fun j => Memory.read s.mem (s.ea j)

end Sys2Proof.Machine
end

