-- ==== Sys2Proof/Machine/Ops.lean ====
section
/-! DEFINITION. The named updates of the state, and over them the operations the meanings share: the advance, the
skip, the stack, raising a fault (the hardware's only exceptional entry, spec/60_exceptions.md R197) and beside it
`initialize`, the only way out of it (R201, R25). -/

namespace Sys2Proof.Machine

open Sys2Proof

/-- What a transition answers. -/
abbrev Result := Host.Outcome State Fault Refusal

/-! ### Updates of one register -/

/-- `V[x] <- b` (R7, R15). -/
def State.setV (s : State) (x : Nibble) (b : Byte) : State := { s with v := s.v.set x.toNat b x.isLt }
/-- `I <- a` (R17). -/
def State.setI (s : State) (a : Addr) : State := { s with i := a }
/-- `PC <- a` (R7, R18). -/
def State.setPc (s : State) (a : Word) : State := { s with pc := a }
/-- `SP <- k` (R19). -/
def State.setSp (s : State) (k : Byte) : State := { s with sp := k }
/-- `STACK[k] <- a` (R20). A cell past the last does not exist and is not written; CALL tests for it first. -/
def State.setStack (s : State) (k : Nat) (a : Word) : State := { s with stack := s.stack.setIfInBounds k a }
/-- `DT <- b` (R21). -/
def State.setDt (s : State) (b : Byte) : State := { s with dt := b }
/-- `ST <- b` (R21). -/
def State.setSt (s : State) (b : Byte) : State := { s with st := b }
/-- MEM replaced. -/
def State.setMem (s : State) (m : Memory) : State := { s with mem := m }
/-- `KEY[k] <- down` (R23). -/
def State.setKey (s : State) (k : Nibble) (down : Bool) : State := { s with keys := s.keys.set k.toNat down k.isLt }
/-- DISP replaced. -/
def State.setDisp (s : State) (d : Display) : State := { s with disp := d }
/-- `MODE <- m` (R25). -/
def State.setMode (s : State) (m : Mode) : State := { s with mode := m }
/-- `KWREG <- x` (R26). -/
def State.setKwreg (s : State) (x : Nibble) : State := { s with kwreg := x }
/-- FAULT replaced (R27). -/
def State.setFault (s : State) (f : FaultRecord) : State := { s with fault := f }
/-- The model's count of draws moved on by one (R34; log entry 8). -/
def State.countDraw (s : State) : State := { s with draws := s.draws + 1 }

/-! ### Shared operations -/

/-- `V[15] <- (1 if b else 0)` (R16). -/
def State.setFlag (s : State) (b : Bool) : State := s.setV vf (flagByte b)

/-- PC + 2: the unconditional advance before an instruction's semantics (R113, R114), and the further step of a
taken skip (R115). -/
def State.advance (s : State) : State := s.setPc (s.pc + 2)

/-- `if c then PC <- PC + 2`, after the advance (R115). -/
def State.skipIf (s : State) (c : Bool) : State := if c then s.advance else s

/-- The bytes `bs` stored from I upward (R46, R51). -/
def State.storeAtI (s : State) (bs : List Byte) : State := s.setMem (Memory.writeBytes s.mem (s.ea 0) bs)

/-- V0, V1, … loaded from `bs` in turn (R51, R166); at most sixteen bytes are ever given. -/
def State.loadV (s : State) (bs : List Byte) : State :=
  (bs.zipIdx).foldl (fun t p => t.setV (BitVec.ofNat 4 p.2) p.1) s

/-- The push of CALL: `SP <- SP + 1; STACK[SP] <- a` (R19, R129). -/
def State.push (s : State) (a : Word) : State := (s.setSp (s.sp + 1)).setStack (s.sp + 1).toNat a

/-- `raise F`: the step changes exactly MODE and FAULT. `s` is the state before the step, so the record's address
is the instruction's and PC stays there (R197; decision D5, log entry 2). -/
def raise (c : FaultCause) (w : Word) (s : State) : Result :=
  .next ((s.setMode .faulted).setFault ⟨c, s.pc, w⟩)

/-- MEM after `initialize`: zeros, then the font bytes at 0x000 (R22, R216). -/
def Memory.initial (font : Font) : Memory := Memory.writeBytes [] 0 font.toList

/-- `initialize` (R33, R216) with the parameter FONT: the reset, and the only way out of Faulted (R25, R201). It
has no effect on `random_byte()` (R34), so the model's count of draws `k` goes on (log entry 8). -/
def State.initialized (font : Font) (k : Nat) : State :=
  { State.reset with mem := Memory.initial font, draws := k }

end Sys2Proof.Machine
end

