-- ==== Sys2Proof/Machine/Alu.lean ====
section
/-! DEFINITION. Register load, arithmetic, logic, shift, random (spec/43_alu.md). The statements of a rule run in the
order written, each reading the registers as the ones before it left them (R7; decision D6, log entry 11); that
order decides what VF holds when x or y is F. -/

namespace Sys2Proof.Machine

open Sys2Proof

/-- LD Vx,kk (R141). -/
def execLdImm (x : Nibble) (kk : Byte) (s : State) : Result := .next (s.advance.setV x kk)

/-- ADD Vx,kk (R142): no flag. -/
def execAddImm (x : Nibble) (kk : Byte) (s : State) : Result := .next (s.advance.setV x (s.getV x + kk))

/-- LD Vx,Vy (R143): the destination is Vy. -/
def execLdReg (x y : Nibble) (s : State) : Result := .next (s.advance.setV y (s.getV x))

/-- OR Vx,Vy (R144). -/
def execOr (x y : Nibble) (s : State) : Result := .next (s.advance.setV x (s.getV x ||| s.getV y))

/-- AND Vx,Vy (R145). -/
def execAnd (x y : Nibble) (s : State) : Result := .next (s.advance.setV x (s.getV x &&& s.getV y))

/-- XOR Vx,Vy (R146). -/
def execXor (x y : Nibble) (s : State) : Result := .next (s.advance.setV x (s.getV x ^^^ s.getV y))

/-- ADD Vx,Vy (R147): the sum is computed once, then VF, then Vx. -/
def execAddReg (x y : Nibble) (s : State) : Result :=
  let sum := exactSum (s.getV x) (s.getV y)
  .next ((s.advance.setFlag (carryFlag (s.getV x) (s.getV y))).setV x (BitVec.ofNat 8 sum))

/-- SUB Vx,Vy (R148): Vx first, then VF from the new Vx, read again. -/
def execSub (x y : Nibble) (s : State) : Result :=
  let t := s.advance.setV x (s.getV x - s.getV y)
  .next (t.setFlag (borrowFlag (s.getV x) (t.getV x)))

/-- SHR Vx,Vy (R149): VF, then Vy, then Vx, each reading Vy again. -/
def execShr (x y : Nibble) (s : State) : Result :=
  let t := s.advance.setV vf (lowBit (s.getV y))
  let u := t.setV y (t.getV y >>> 1)
  .next (u.setV x (u.getV y))

/-- SUBN Vx,Vy (R150): VF, then Vx from Vy and Vx read again. -/
def execSubn (x y : Nibble) (s : State) : Result :=
  let t := s.advance.setFlag (greaterFlag (s.getV y) (s.getV x))
  .next (t.setV x (t.getV y - t.getV x))

/-- SHL Vx,Vy (R151): VF, then Vx read again; Vy is neither read nor written. -/
def execShl (x _y : Nibble) (s : State) : Result :=
  let t := s.advance.setV vf (highBit (s.getV x))
  .next (t.setV x (t.getV x * 2))

/-- RND Vx,kk with the draw given (R153, R120). -/
def rndWith (draw : Byte) (x : Nibble) (kk : Byte) (s : State) : Result :=
  .next (s.advance.countDraw.setV x (draw &&& kk))

/-- RND Vx,kk (R153): the draw is the free value the count selects (R34; log entry 8). -/
def execRnd (x : Nibble) (kk : Byte) (s : State) : Result := rndWith (Config.randomByte s.draws) x kk s

end Sys2Proof.Machine
end

