-- ==== Sys2Proof/Syntax.lean ====
section
/-! DEFINITION. The instructions: one constructor per row of spec/opcode_table.json (the 34 forms of
spec/30_encoding.md R65 in the table's order, then the class SYS of R68 and the class UNMAPPED of R69).

A constructor carries every bit of the word its row leaves open. Where the decoder does not test a field
(R67: x of CLS and RET, n of SE Vx,Vy and SNE Vx,Vy) the constructor still holds it, as the decoder of
spec/41_step_cycle.md R113 hands the execution all of (form, x, y, n, kk, nnn), and because the fault record
keeps the whole 16-bit instruction (R27, R196). Log entry 10. -/

namespace Sys2Proof

inductive Instr where
  /-- `CLS`, 0xE0 with x not tested (R171). -/
  | cls (x : Nibble)
  /-- `RET`, 0xEE with x not tested (R127). -/
  | ret (x : Nibble)
  /-- `JP nnn`, 1nnn (R128). -/
  | jp (nnn : Addr)
  /-- `JP V0,nnn`, Bnnn (R131). -/
  | jpV0 (nnn : Addr)
  /-- `CALL nnn`, 2nnn (R129). -/
  | call (nnn : Addr)
  /-- `SE Vx,kk`, 3xkk (R132). -/
  | seImm (x : Nibble) (kk : Byte)
  /-- `SE Vx,Vy`, 5xyn with n not tested (R134). -/
  | seReg (x y n : Nibble)
  /-- `SNE Vx,kk`, 4xkk (R133). -/
  | sneImm (x : Nibble) (kk : Byte)
  /-- `SNE Vx,Vy`, 9xyn with n not tested (R135). -/
  | sneReg (x y n : Nibble)
  /-- `LD Vx,kk`, 6xkk (R141). -/
  | ldImm (x : Nibble) (kk : Byte)
  /-- `LD Vx,Vy`, 8xy0; the destination is Vy (R143). -/
  | ldReg (x y : Nibble)
  /-- `LD I,nnn`, Annn (R161). -/
  | ldI (nnn : Addr)
  /-- `LD Vx,DT`, Fx07 (R176). -/
  | ldVxDt (x : Nibble)
  /-- `LD Vx,K`, Fx0A (R179). -/
  | ldVxK (x : Nibble)
  /-- `LD DT,Vx`, Fx15 (R177). -/
  | ldDtVx (x : Nibble)
  /-- `LD ST,Vx`, Fx18 (R178). -/
  | ldStVx (x : Nibble)
  /-- `LD F,Vx`, Fx29 (R163). -/
  | ldF (x : Nibble)
  /-- `LD B,Vx`, Fx33 (R164). -/
  | ldB (x : Nibble)
  /-- `LD [I],Vx`, Fx55 (R165). -/
  | storeRegs (x : Nibble)
  /-- `LD Vx,[I]`, Fx65 (R166). -/
  | loadRegs (x : Nibble)
  /-- `ADD Vx,kk`, 7xkk (R142). -/
  | addImm (x : Nibble) (kk : Byte)
  /-- `ADD Vx,Vy`, 8xy4 (R147). -/
  | addReg (x y : Nibble)
  /-- `ADD I,Vx`, Fx1E (R162). -/
  | addI (x : Nibble)
  /-- `OR Vx,Vy`, 8xy1 (R144). -/
  | orReg (x y : Nibble)
  /-- `AND Vx,Vy`, 8xy2 (R145). -/
  | andReg (x y : Nibble)
  /-- `XOR Vx,Vy`, 8xy3 (R146). -/
  | xorReg (x y : Nibble)
  /-- `SUB Vx,Vy`, 8xy5 (R148). -/
  | subReg (x y : Nibble)
  /-- `SHR Vx,Vy`, 8xy6 (R149). -/
  | shrReg (x y : Nibble)
  /-- `SUBN Vx,Vy`, 8xy7 (R150). -/
  | subnReg (x y : Nibble)
  /-- `SHL Vx,Vy`, 8xyE; y is encoded and unused (R151). -/
  | shlReg (x y : Nibble)
  /-- `RND Vx,kk`, Cxkk (R153). -/
  | rnd (x : Nibble) (kk : Byte)
  /-- `DRW Vx,Vy,n`, Dxyn (R172). -/
  | drw (x y n : Nibble)
  /-- `SKP Vx`, Ex9E (R180). -/
  | skp (x : Nibble)
  /-- `SKNP Vx`, ExA1 (R181). -/
  | sknp (x : Nibble)
  /-- SYS, 0nnn with the low byte of nnn neither E0 nor EE (R68, R126). -/
  | sys (nnn : Addr)
  /-- UNMAPPED: a word no other row takes (R69, R194). -/
  | unmapped (w : Word)
  deriving DecidableEq, Repr

end Sys2Proof
end

