-- ==== Sys2Proof/WellFormed.lean ====
section
/-! DEFINITION. Which instruction terms are instructions of the hardware. A field's width already bounds its
value (R84), so two classes need a check: a SYS term must not be a CLS or RET word (R68), and an UNMAPPED term
must be one of the 9808 words of R69. -/

namespace Sys2Proof

/-- The low byte of a SYS word is neither E0 nor EE (R68). -/
def Instr.sysWf (nnn : Addr) : Bool :=
  nnn &&& 0x0FF#12 != 0x0E0#12 && nnn &&& 0x0FF#12 != 0x0EE#12

/-- Minor opcodes n that op = 8 gives a meaning (R66). -/
def Instr.aluMinors : List Word := [0x0, 0x1, 0x2, 0x3, 0x4, 0x5, 0x6, 0x7, 0xE]

/-- Minor opcodes kk that op = E gives a meaning (R66). -/
def Instr.keyMinors : List Word := [0x9E, 0xA1]

/-- Minor opcodes kk that op = F gives a meaning (R66). -/
def Instr.miscMinors : List Word := [0x07, 0x0A, 0x15, 0x18, 0x1E, 0x29, 0x33, 0x55, 0x65]

/-- The UNMAPPED words (R69), by the three groups the rule lists. -/
def Instr.unmappedWf (w : Word) : Bool :=
  (w &&& 0xF000#16 == 0x8000#16 && !Instr.aluMinors.contains (w &&& 0x000F#16)) ||
  (w &&& 0xF000#16 == 0xE000#16 && !Instr.keyMinors.contains (w &&& 0x00FF#16)) ||
  (w &&& 0xF000#16 == 0xF000#16 && !Instr.miscMinors.contains (w &&& 0x00FF#16))

/-- The terms that are instructions of the hardware. -/
def Instr.wf : Instr → Bool
  | .sys nnn => Instr.sysWf nnn
  | .unmapped w => Instr.unmappedWf w
  | .cls _ | .ret _ | .seReg _ _ _ | .sneReg _ _ _ | .jp _ | .jpV0 _ | .call _ | .seImm _ _ | .sneImm _ _
  | .ldImm _ _ | .ldReg _ _ | .ldI _ | .ldVxDt _ | .ldVxK _ | .ldDtVx _ | .ldStVx _ | .ldF _ | .ldB _
  | .storeRegs _ | .loadRegs _ | .addImm _ _ | .addReg _ _ | .addI _ | .orReg _ _ | .andReg _ _ | .xorReg _ _
  | .subReg _ _ | .shrReg _ _ | .subnReg _ _ | .shlReg _ _ | .rnd _ _ | .drw _ _ _ | .skp _ | .sknp _ => true

/-- The terms the instruction encoder can produce (R83, R105): the 34 forms, with the fields the decoder does
not test emitted as 0 (R67). No SYS word and no UNMAPPED word is emitted (R68, R105). -/
def Instr.emitted : Instr → Bool
  | .cls x => x == 0
  | .ret x => x == 0
  | .seReg _ _ n => n == 0
  | .sneReg _ _ n => n == 0
  | .sys _ => false
  | .unmapped _ => false
  | .jp _ | .jpV0 _ | .call _ | .seImm _ _ | .sneImm _ _ | .ldImm _ _ | .ldReg _ _ | .ldI _ | .ldVxDt _
  | .ldVxK _ | .ldDtVx _ | .ldStVx _ | .ldF _ | .ldB _ | .storeRegs _ | .loadRegs _ | .addImm _ _
  | .addReg _ _ | .addI _ | .orReg _ _ | .andReg _ _ | .xorReg _ _ | .subReg _ _ | .shrReg _ _ | .subnReg _ _
  | .shlReg _ _ | .rnd _ _ | .drw _ _ _ | .skp _ | .sknp _ => true

end Sys2Proof
end

