-- ==== Sys2Proof/Decode.lean ====
section
/-! DEFINITION. The binary format (spec/30_encoding.md): fields, the decoder of R66, the exact inverse of the
decoder, the opcode table as rows of mask and match (R65), and the mapper `EncodeForm` of spec/40_encoder.md R83.
The text front end of the encoder is Machine/TextEncoder.lean. -/

namespace Sys2Proof

/-! ### Fields of a word (R62) -/

/-- op = w[15:12]. -/
def fieldOp (w : Word) : Nibble := w.extractLsb' 12 4
/-- x = w[11:8]. -/
def fieldX (w : Word) : Nibble := w.extractLsb' 8 4
/-- y = w[7:4]. -/
def fieldY (w : Word) : Nibble := w.extractLsb' 4 4
/-- n = w[3:0]. -/
def fieldN (w : Word) : Nibble := w.extractLsb' 0 4
/-- kk = w[7:0]. -/
def fieldKK (w : Word) : Byte := w.extractLsb' 0 8
/-- nnn = w[11:0]. -/
def fieldNNN (w : Word) : Addr := w.extractLsb' 0 12

/-! ### The decoder (R66) -/

/-- The row op = 8, selected by n. -/
def decodeAlu (w : Word) : Instr :=
  match (fieldN w).toNat with
  | 0x0 => .ldReg (fieldX w) (fieldY w)
  | 0x1 => .orReg (fieldX w) (fieldY w)
  | 0x2 => .andReg (fieldX w) (fieldY w)
  | 0x3 => .xorReg (fieldX w) (fieldY w)
  | 0x4 => .addReg (fieldX w) (fieldY w)
  | 0x5 => .subReg (fieldX w) (fieldY w)
  | 0x6 => .shrReg (fieldX w) (fieldY w)
  | 0x7 => .subnReg (fieldX w) (fieldY w)
  | 0xE => .shlReg (fieldX w) (fieldY w)
  | _ => .unmapped w

/-- The row op = F, selected by kk. -/
def decodeMisc (w : Word) : Instr :=
  let x := fieldX w
  if fieldKK w = 0x07 then .ldVxDt x
  else if fieldKK w = 0x0A then .ldVxK x
  else if fieldKK w = 0x15 then .ldDtVx x
  else if fieldKK w = 0x18 then .ldStVx x
  else if fieldKK w = 0x1E then .addI x
  else if fieldKK w = 0x29 then .ldF x
  else if fieldKK w = 0x33 then .ldB x
  else if fieldKK w = 0x55 then .storeRegs x
  else if fieldKK w = 0x65 then .loadRegs x
  else .unmapped w

/-- The decoder of R66: total, and a function of the word alone. Words without a form decode to SYS (R68) or
UNMAPPED (R69), which are instructions with an effect, not errors (R70). -/
def decode (w : Word) : Instr :=
  match (fieldOp w).toNat with
  | 0x0 =>
    if fieldKK w = 0xE0 then .cls (fieldX w)
    else if fieldKK w = 0xEE then .ret (fieldX w)
    else .sys (fieldNNN w)
  | 0x1 => .jp (fieldNNN w)
  | 0x2 => .call (fieldNNN w)
  | 0x3 => .seImm (fieldX w) (fieldKK w)
  | 0x4 => .sneImm (fieldX w) (fieldKK w)
  | 0x5 => .seReg (fieldX w) (fieldY w) (fieldN w)
  | 0x6 => .ldImm (fieldX w) (fieldKK w)
  | 0x7 => .addImm (fieldX w) (fieldKK w)
  | 0x8 => decodeAlu w
  | 0x9 => .sneReg (fieldX w) (fieldY w) (fieldN w)
  | 0xA => .ldI (fieldNNN w)
  | 0xB => .jpV0 (fieldNNN w)
  | 0xC => .rnd (fieldX w) (fieldKK w)
  | 0xD => .drw (fieldX w) (fieldY w) (fieldN w)
  | 0xE =>
    if fieldKK w = 0x9E then .skp (fieldX w)
    else if fieldKK w = 0xA1 then .sknp (fieldX w)
    else .unmapped w
  | _ => decodeMisc w

/-- Why a byte sequence holds no instruction. -/
inductive DecodeError where
  /-- Fewer than two bytes: an instruction is exactly two bytes (R61, R71). -/
  | truncated
  deriving DecidableEq, Repr

/-- The word whose byte at the lower address is `hi` (R43). -/
def wordOfBytes (hi lo : Byte) : Word := hi ++ lo

/-- Decoding a byte stream: two bytes, high byte first, and the rest of the stream (R43, R61, R71). -/
def decodeBytes : List Byte → Except DecodeError (Instr × List Byte)
  | hi :: lo :: rest => .ok (decode (wordOfBytes hi lo), rest)
  | _ => .error .truncated

/-- The instruction read from `nbits` bits `w` of the opcode table's numbering, laid out as the hardware
stores a word, high byte first (R43), and given to the decoder; missing bits are 0. -/
def decodeTableWord (nbits w : Nat) : Option Instr :=
  let v : Word := BitVec.ofNat 16 (w % 2 ^ nbits)
  match decodeBytes [v.extractLsb' 8 8, v.extractLsb' 0 8] with
  | .ok (i, _) => some i
  | .error _ => none

/-! ### The encoder -/

/-- The formats A, XK (and X) and XY (and XYN) of R63: the fields side by side, op first. -/
def wordA (op : Nibble) (nnn : Addr) : Word := op ++ nnn
/-- op x kk. -/
def wordXK (op x : Nibble) (kk : Byte) : Word := op ++ (x ++ kk)
/-- op x y n. -/
def wordXYN (op x y n : Nibble) : Word := op ++ (x ++ (y ++ n))

/-- The word an instruction stands for: the pattern of its opcode-table row with the fields filled in
(R62, R63, R65). It keeps the fields the decoder does not test, so it undoes `decode` exactly. -/
def encode : Instr → Word
  | .cls x => wordXK 0x0 x 0xE0
  | .ret x => wordXK 0x0 x 0xEE
  | .jp nnn => wordA 0x1 nnn
  | .jpV0 nnn => wordA 0xB nnn
  | .call nnn => wordA 0x2 nnn
  | .seImm x kk => wordXK 0x3 x kk
  | .seReg x y n => wordXYN 0x5 x y n
  | .sneImm x kk => wordXK 0x4 x kk
  | .sneReg x y n => wordXYN 0x9 x y n
  | .ldImm x kk => wordXK 0x6 x kk
  | .ldReg x y => wordXYN 0x8 x y 0x0
  | .ldI nnn => wordA 0xA nnn
  | .ldVxDt x => wordXK 0xF x 0x07
  | .ldVxK x => wordXK 0xF x 0x0A
  | .ldDtVx x => wordXK 0xF x 0x15
  | .ldStVx x => wordXK 0xF x 0x18
  | .ldF x => wordXK 0xF x 0x29
  | .ldB x => wordXK 0xF x 0x33
  | .storeRegs x => wordXK 0xF x 0x55
  | .loadRegs x => wordXK 0xF x 0x65
  | .addImm x kk => wordXK 0x7 x kk
  | .addReg x y => wordXYN 0x8 x y 0x4
  | .addI x => wordXK 0xF x 0x1E
  | .orReg x y => wordXYN 0x8 x y 0x1
  | .andReg x y => wordXYN 0x8 x y 0x2
  | .xorReg x y => wordXYN 0x8 x y 0x3
  | .subReg x y => wordXYN 0x8 x y 0x5
  | .shrReg x y => wordXYN 0x8 x y 0x6
  | .subnReg x y => wordXYN 0x8 x y 0x7
  | .shlReg x y => wordXYN 0x8 x y 0xE
  | .rnd x kk => wordXK 0xC x kk
  | .drw x y n => wordXYN 0xD x y n
  | .skp x => wordXK 0xE x 0x9E
  | .sknp x => wordXK 0xE x 0xA1
  | .sys nnn => wordA 0x0 nnn
  | .unmapped w => w

/-- The two bytes of an instruction in the order memory holds them (R43, R104). -/
def encodeBytes (i : Instr) : List Byte :=
  [(encode i).extractLsb' 8 8, (encode i).extractLsb' 0 8]

/-- The row of the opcode table an instruction belongs to: 1 to 34 the forms of R65, 35 SYS, 36 UNMAPPED. -/
def Instr.row : Instr → Nat
  | .cls _ => 1
  | .ret _ => 2
  | .jp _ => 3
  | .jpV0 _ => 4
  | .call _ => 5
  | .seImm _ _ => 6
  | .seReg _ _ _ => 7
  | .sneImm _ _ => 8
  | .sneReg _ _ _ => 9
  | .ldImm _ _ => 10
  | .ldReg _ _ => 11
  | .ldI _ => 12
  | .ldVxDt _ => 13
  | .ldVxK _ => 14
  | .ldDtVx _ => 15
  | .ldStVx _ => 16
  | .ldF _ => 17
  | .ldB _ => 18
  | .storeRegs _ => 19
  | .loadRegs _ => 20
  | .addImm _ _ => 21
  | .addReg _ _ => 22
  | .addI _ => 23
  | .orReg _ _ => 24
  | .andReg _ _ => 25
  | .xorReg _ _ => 26
  | .subReg _ _ => 27
  | .shrReg _ _ => 28
  | .subnReg _ _ => 29
  | .shlReg _ _ => 30
  | .rnd _ _ => 31
  | .drw _ _ _ => 32
  | .skp _ => 33
  | .sknp _ => 34
  | .sys _ => 35
  | .unmapped _ => 36

/-! ### The mapper `EncodeForm` (R82, R83) -/

/-- The instruction that form number `form` (R65, R82; decision D23, log entry 21) denotes with the given
operand fields; a form ignores the fields it does not list, and the bits the decoder does not test are 0. -/
def formInstr (form : Nat) (x y : Nibble) (kk : Byte) (nnn : Addr) (n : Nibble) : Option Instr :=
  match form with
  | 1 => some (.cls 0)
  | 2 => some (.ret 0)
  | 3 => some (.jp nnn)
  | 4 => some (.jpV0 nnn)
  | 5 => some (.call nnn)
  | 6 => some (.seImm x kk)
  | 7 => some (.seReg x y 0)
  | 8 => some (.sneImm x kk)
  | 9 => some (.sneReg x y 0)
  | 10 => some (.ldImm x kk)
  | 11 => some (.ldReg x y)
  | 12 => some (.ldI nnn)
  | 13 => some (.ldVxDt x)
  | 14 => some (.ldVxK x)
  | 15 => some (.ldDtVx x)
  | 16 => some (.ldStVx x)
  | 17 => some (.ldF x)
  | 18 => some (.ldB x)
  | 19 => some (.storeRegs x)
  | 20 => some (.loadRegs x)
  | 21 => some (.addImm x kk)
  | 22 => some (.addReg x y)
  | 23 => some (.addI x)
  | 24 => some (.orReg x y)
  | 25 => some (.andReg x y)
  | 26 => some (.xorReg x y)
  | 27 => some (.subReg x y)
  | 28 => some (.shrReg x y)
  | 29 => some (.subnReg x y)
  | 30 => some (.shlReg x y)
  | 31 => some (.rnd x kk)
  | 32 => some (.drw x y n)
  | 33 => some (.skp x)
  | 34 => some (.sknp x)
  | _ => none

/-- `EncodeForm(form, x, y, kk, nnn, n)`, each line the arithmetic expression of R83. The operand types are
the field widths, so no operand can be out of range and spill into a neighbour (R84). `none` only where
`form` is no form number. -/
def encodeForm (form : Nat) (x y : Nibble) (kk : Byte) (nnn : Addr) (n : Nibble) : Option Word :=
  match form with
  | 1 => some (0x00E0#16)                                                     -- CLS
  | 2 => some (0x00EE#16)                                                     -- RET
  | 3 => some (0x1000#16 ||| nnn.setWidth 16)                                 -- JP nnn
  | 4 => some (0xB000#16 ||| nnn.setWidth 16)                                 -- JP V0,nnn
  | 5 => some (0x2000#16 ||| nnn.setWidth 16)                                 -- CALL nnn
  | 6 => some (0x3000#16 ||| (x.setWidth 16 <<< 8) ||| kk.setWidth 16)        -- SE Vx,kk
  | 7 => some (0x5000#16 ||| (x.setWidth 16 <<< 8) ||| (y.setWidth 16 <<< 4)) -- SE Vx,Vy
  | 8 => some (0x4000#16 ||| (x.setWidth 16 <<< 8) ||| kk.setWidth 16)        -- SNE Vx,kk
  | 9 => some (0x9000#16 ||| (x.setWidth 16 <<< 8) ||| (y.setWidth 16 <<< 4)) -- SNE Vx,Vy
  | 10 => some (0x6000#16 ||| (x.setWidth 16 <<< 8) ||| kk.setWidth 16)        -- LD Vx,kk
  | 11 => some (0x8000#16 ||| (x.setWidth 16 <<< 8) ||| (y.setWidth 16 <<< 4)) -- LD Vx,Vy
  | 12 => some (0xA000#16 ||| nnn.setWidth 16)                                 -- LD I,nnn
  | 13 => some (0xF007#16 ||| (x.setWidth 16 <<< 8))                           -- LD Vx,DT
  | 14 => some (0xF00A#16 ||| (x.setWidth 16 <<< 8))                           -- LD Vx,K
  | 15 => some (0xF015#16 ||| (x.setWidth 16 <<< 8))                           -- LD DT,Vx
  | 16 => some (0xF018#16 ||| (x.setWidth 16 <<< 8))                           -- LD ST,Vx
  | 17 => some (0xF029#16 ||| (x.setWidth 16 <<< 8))                           -- LD F,Vx
  | 18 => some (0xF033#16 ||| (x.setWidth 16 <<< 8))                           -- LD B,Vx
  | 19 => some (0xF055#16 ||| (x.setWidth 16 <<< 8))                           -- LD [I],Vx
  | 20 => some (0xF065#16 ||| (x.setWidth 16 <<< 8))                           -- LD Vx,[I]
  | 21 => some (0x7000#16 ||| (x.setWidth 16 <<< 8) ||| kk.setWidth 16)        -- ADD Vx,kk
  | 22 => some (0x8004#16 ||| (x.setWidth 16 <<< 8) ||| (y.setWidth 16 <<< 4)) -- ADD Vx,Vy
  | 23 => some (0xF01E#16 ||| (x.setWidth 16 <<< 8))                           -- ADD I,Vx
  | 24 => some (0x8001#16 ||| (x.setWidth 16 <<< 8) ||| (y.setWidth 16 <<< 4)) -- OR Vx,Vy
  | 25 => some (0x8002#16 ||| (x.setWidth 16 <<< 8) ||| (y.setWidth 16 <<< 4)) -- AND Vx,Vy
  | 26 => some (0x8003#16 ||| (x.setWidth 16 <<< 8) ||| (y.setWidth 16 <<< 4)) -- XOR Vx,Vy
  | 27 => some (0x8005#16 ||| (x.setWidth 16 <<< 8) ||| (y.setWidth 16 <<< 4)) -- SUB Vx,Vy
  | 28 => some (0x8006#16 ||| (x.setWidth 16 <<< 8) ||| (y.setWidth 16 <<< 4)) -- SHR Vx,Vy
  | 29 => some (0x8007#16 ||| (x.setWidth 16 <<< 8) ||| (y.setWidth 16 <<< 4)) -- SUBN Vx,Vy
  | 30 => some (0x800E#16 ||| (x.setWidth 16 <<< 8) ||| (y.setWidth 16 <<< 4)) -- SHL Vx,Vy
  | 31 => some (0xC000#16 ||| (x.setWidth 16 <<< 8) ||| kk.setWidth 16)        -- RND Vx,kk
  | 32 => some (0xD000#16 ||| (x.setWidth 16 <<< 8) ||| (y.setWidth 16 <<< 4) ||| n.setWidth 16) -- DRW Vx,Vy,n
  | 33 => some (0xE09E#16 ||| (x.setWidth 16 <<< 8))                           -- SKP Vx
  | 34 => some (0xE0A1#16 ||| (x.setWidth 16 <<< 8))                           -- SKNP Vx
  | _ => none

/-! ### The opcode table as data -/

/-- A row of the opcode table: a word `w` matches it when `w &&& mask = value` (R65). -/
structure OpcodeRow where
  number : Nat
  mask : Word
  value : Word
  deriving DecidableEq, Repr

/-- The rows of R65 in the table's order, then SYS, then the catch-all UNMAPPED; the first match wins
(spec/opcode_table.json). -/
def opcodeRows : List OpcodeRow := [
  ⟨ 1, 0xF0FF, 0x00E0⟩,  -- CLS
  ⟨ 2, 0xF0FF, 0x00EE⟩,  -- RET
  ⟨ 3, 0xF000, 0x1000⟩,  -- JP nnn
  ⟨ 4, 0xF000, 0xB000⟩,  -- JP V0,nnn
  ⟨ 5, 0xF000, 0x2000⟩,  -- CALL nnn
  ⟨ 6, 0xF000, 0x3000⟩,  -- SE Vx,kk
  ⟨ 7, 0xF000, 0x5000⟩,  -- SE Vx,Vy
  ⟨ 8, 0xF000, 0x4000⟩,  -- SNE Vx,kk
  ⟨ 9, 0xF000, 0x9000⟩,  -- SNE Vx,Vy
  ⟨10, 0xF000, 0x6000⟩,  -- LD Vx,kk
  ⟨11, 0xF00F, 0x8000⟩,  -- LD Vx,Vy
  ⟨12, 0xF000, 0xA000⟩,  -- LD I,nnn
  ⟨13, 0xF0FF, 0xF007⟩,  -- LD Vx,DT
  ⟨14, 0xF0FF, 0xF00A⟩,  -- LD Vx,K
  ⟨15, 0xF0FF, 0xF015⟩,  -- LD DT,Vx
  ⟨16, 0xF0FF, 0xF018⟩,  -- LD ST,Vx
  ⟨17, 0xF0FF, 0xF029⟩,  -- LD F,Vx
  ⟨18, 0xF0FF, 0xF033⟩,  -- LD B,Vx
  ⟨19, 0xF0FF, 0xF055⟩,  -- LD [I],Vx
  ⟨20, 0xF0FF, 0xF065⟩,  -- LD Vx,[I]
  ⟨21, 0xF000, 0x7000⟩,  -- ADD Vx,kk
  ⟨22, 0xF00F, 0x8004⟩,  -- ADD Vx,Vy
  ⟨23, 0xF0FF, 0xF01E⟩,  -- ADD I,Vx
  ⟨24, 0xF00F, 0x8001⟩,  -- OR Vx,Vy
  ⟨25, 0xF00F, 0x8002⟩,  -- AND Vx,Vy
  ⟨26, 0xF00F, 0x8003⟩,  -- XOR Vx,Vy
  ⟨27, 0xF00F, 0x8005⟩,  -- SUB Vx,Vy
  ⟨28, 0xF00F, 0x8006⟩,  -- SHR Vx,Vy
  ⟨29, 0xF00F, 0x8007⟩,  -- SUBN Vx,Vy
  ⟨30, 0xF00F, 0x800E⟩,  -- SHL Vx,Vy
  ⟨31, 0xF000, 0xC000⟩,  -- RND Vx,kk
  ⟨32, 0xF000, 0xD000⟩,  -- DRW Vx,Vy,n
  ⟨33, 0xF0FF, 0xE09E⟩,  -- SKP Vx
  ⟨34, 0xF0FF, 0xE0A1⟩,  -- SKNP Vx
  ⟨35, 0xF000, 0x0000⟩,  -- SYS
  ⟨36, 0x0000, 0x0000⟩   -- UNMAPPED
]

/-- The number of the first row a word matches. -/
def firstRow (w : Word) : Option Nat :=
  (opcodeRows.find? fun r => w &&& r.mask == r.value).map (·.number)

end Sys2Proof
end

