-- ==== Sys2Proof/Machine/Display.lean ====
section
/-! DEFINITION. The display (spec/45_display.md): pixels with their wrap, CLS, the sprite rasteriser of DRW, and the
host's read-out. -/

namespace Sys2Proof.Machine

open Sys2Proof

/-- The pixel in column `x mod 64` and row `y mod 32`: both coordinates wrap, each on its own (R24, R174; the row
modulus is the height, spec/90_conflicts.md C3, log entry 13). -/
def Display.pixel (d : Display) (x y : Nat) : Bool :=
  (d[y % Config.dispH]'(Nat.mod_lt _ (by decide)))[x % Config.dispW]'(Nat.mod_lt _ (by decide))

/-- That pixel written. -/
def Display.setPixel (d : Display) (x y : Nat) (b : Bool) : Display :=
  d.set (y % Config.dispH)
    ((d[y % Config.dispH]'(Nat.mod_lt _ (by decide))).set (x % Config.dispW) b (Nat.mod_lt _ (by decide)))
    (Nat.mod_lt _ (by decide))

/-- DISP with every pixel 0 (R171). -/
def Display.clear : Display := Vector.replicate Config.dispH (Vector.replicate Config.dispW false)

/-- CLS (R171): VF is not written. -/
def execCls (_x : Nibble) (s : State) : Result := .next (s.advance.setDisp Display.clear)

/-- Bit `col` of a sprite row, column 0 the leftmost: `(b >> (7 - col)) & 1` (R173). -/
def spriteBit (b : Byte) (col : Nat) : Bool := b.getLsbD (7 - col)

/-- The inner statement of R172: one bit XORed into one pixel, the collision noted. -/
def xorPixel (x y : Nat) (bit : Bool) (p : Display × Bool) : Display × Bool :=
  let old := Display.pixel p.1 x y
  let new := old ^^ bit
  (Display.setPixel p.1 x y new, p.2 || collides old new)

/-- One sprite row: the eight columns in ascending order (R172). -/
def drawRow (x y : Nat) (b : Byte) (p : Display × Bool) : Display × Bool :=
  (List.range 8).foldl (fun q col => xorPixel (x + col) y (spriteBit b col) q) p

/-- The sprite rows, top row first (R172, R173). -/
def drawRows (x y : Nat) : List Byte → Display × Bool → Display × Bool
  | [], p => p
  | b :: bs, p => drawRows x (y + 1) bs (drawRow x y b p)

/-- DRW Vx,Vy,n (R172). Vx and Vy are read once, before VF is written (decision D29, log entry 11). With n = 0 there
is no access and no fault (R47), nothing is drawn and VF is 0. -/
def execDrw (x y n : Nibble) (s : State) : Result :=
  if n = 0 || s.inMem (n.toNat - 1) then
    let p := drawRows (s.getV x).toNat (s.getV y).toNat (s.bytesAtI n.toNat) (s.disp, false)
    .next ((s.advance.setDisp p.1).setFlag p.2)
  else raise .memBounds (encode (.drw x y n)) s

/-- Three colour bytes, R, G, B (R175). -/
structure Rgb where
  r : Byte
  g : Byte
  b : Byte
  deriving DecidableEq, Repr

/-- One exported pixel: R, G, B, A with A = 0xFF (R175). -/
def rgbaBytes (c : Rgb) : List Byte := [c.r, c.g, c.b, 0xFF]

/-- The screen export (R175): 64 x 32 pixels in row-major order, four bytes each. COLOR_ON and COLOR_OFF are OPEN
parameters (R5; decision D25, log entry 22), so they are arguments. -/
def rgbaExport (on off : Rgb) (d : Display) : List Byte :=
  d.toList.flatMap fun row => row.toList.flatMap fun p => rgbaBytes (if p then on else off)

end Sys2Proof.Machine
end

