-- ==== Sys2Proof/Machine/Flow.lean ====
section
/-! DEFINITION. Control transfer (spec/42_flow.md), and the two classes of words without a form: SYS (R126) and
UNMAPPED (R194). In this file and the other instruction files `s` is the state before the step, `s.advance` the
state the rule's pseudocode starts from (R113, R114). What SYS and UNMAPPED report is Machine/Report.lean. -/

namespace Sys2Proof.Machine

open Sys2Proof

/-- SYS (R126): a two-byte no-op with a diagnostic. -/
def execSys (_nnn : Addr) (s : State) : Result := .next s.advance

/-- UNMAPPED (R194): a two-byte no-op with a diagnostic. -/
def execUnmapped (_w : Word) (s : State) : Result := .next s.advance

/-- RET (R127). The cell keeps its value. SP above 15 names no cell: the model's own fault (log entry 18). -/
def execRet (x : Nibble) (s : State) : Result :=
  if s.sp = 0 then raise .stackUnderflow (encode (.ret x)) s
  else
    match s.stackTop with
    | some a => .next ((s.advance.setPc a).setSp (s.sp - 1))
    | none => .fault .noStackCell

/-- JP nnn (R128). -/
def execJp (nnn : Addr) (s : State) : Result := .next (s.advance.setPc (nnn.setWidth 16))

/-- CALL nnn (R129). The pushed PC is already the next instruction's address (R114). -/
def execCall (nnn : Addr) (s : State) : Result :=
  if s.sp.toNat + 1 > Config.stackSlots - 1 then raise .stackOverflow (encode (.call nnn)) s
  else .next ((s.advance.push s.advance.pc).setPc (nnn.setWidth 16))

/-- JP V0,nnn (R131): the sum wraps within 12 bits. -/
def execJpV0 (nnn : Addr) (s : State) : Result :=
  .next (s.advance.setPc ((nnn + (s.getV 0).setWidth 12).setWidth 16))

/-- SE Vx,kk (R132). -/
def execSeImm (x : Nibble) (kk : Byte) (s : State) : Result := .next (s.advance.skipIf (s.getV x == kk))

/-- SNE Vx,kk (R133). -/
def execSneImm (x : Nibble) (kk : Byte) (s : State) : Result := .next (s.advance.skipIf (s.getV x != kk))

/-- SE Vx,Vy (R134); n is not tested (R67). -/
def execSeReg (x y _n : Nibble) (s : State) : Result := .next (s.advance.skipIf (s.getV x == s.getV y))

/-- SNE Vx,Vy (R135); n is not tested (R67). -/
def execSneReg (x y _n : Nibble) (s : State) : Result := .next (s.advance.skipIf (s.getV x != s.getV y))

end Sys2Proof.Machine
end

