-- ==== Sys2Proof/Machine/Index.lean ====
section
/-! DEFINITION. The index register and the memory block instructions (spec/44_index_memory.md). None changes I as a
side effect, and each memory instruction tests its whole range before any effect (R47). -/

namespace Sys2Proof.Machine

open Sys2Proof

/-- LD I,nnn (R161). -/
def execLdI (nnn : Addr) (s : State) : Result := .next (s.advance.setI nnn)

/-- ADD I,Vx (R162): modulo 4096, no flag. -/
def execAddI (x : Nibble) (s : State) : Result := .next (s.advance.setI (s.i + (s.getV x).setWidth 12))

/-- LD F,Vx (R163): all eight bits of Vx times 5. -/
def execLdF (x : Nibble) (s : State) : Result := .next (s.advance.setI ((s.getV x).setWidth 12 * 5))

/-- The decimal digits of a byte: hundreds, tens, ones (R164). -/
def bcdDigits (b : Byte) : List Byte :=
  [BitVec.ofNat 8 (b.toNat / 100), BitVec.ofNat 8 (b.toNat / 10 % 10), BitVec.ofNat 8 (b.toNat % 10)]

/-- LD B,Vx (R164). -/
def execLdB (x : Nibble) (s : State) : Result :=
  if s.inMem 2 then .next (s.advance.storeAtI (bcdDigits (s.getV x)))
  else raise .memBounds (encode (.ldB x)) s

/-- LD [I],Vx (R165). -/
def execStoreRegs (x : Nibble) (s : State) : Result :=
  if s.inMem x.toNat then .next (s.advance.storeAtI (s.firstV x))
  else raise .memBounds (encode (.storeRegs x)) s

/-- LD Vx,[I] (R166). -/
def execLoadRegs (x : Nibble) (s : State) : Result :=
  if s.inMem x.toNat then .next (s.advance.loadV (s.bytesAtI (x.toNat + 1)))
  else raise .memBounds (encode (.loadRegs x)) s

end Sys2Proof.Machine
end

