-- ==== Sys2Proof/Machine/TimersKeypad.lean ====
section
/-! DEFINITION. The timer and keypad instructions, the key-wait scan, the tick and the key events
(spec/46_timers_keypad.md, spec/41_step_cycle.md R112). -/

namespace Sys2Proof.Machine

open Sys2Proof

/-- LD Vx,DT (R176). -/
def execLdVxDt (x : Nibble) (s : State) : Result := .next (s.advance.setV x s.dt)

/-- LD DT,Vx (R177). -/
def execLdDtVx (x : Nibble) (s : State) : Result := .next (s.advance.setDt (s.getV x))

/-- LD ST,Vx (R178). -/
def execLdStVx (x : Nibble) (s : State) : Result := .next (s.advance.setSt (s.getV x))

/-- LD Vx,K (R179): enter the key wait; KEY is not looked at, Vx is not written. -/
def execLdVxK (x : Nibble) (s : State) : Result := .next ((s.advance.setKwreg x).setMode .awaitingKey)

/-- SKP Vx (R180): the key tested is the one numbered by the x field (decision D7, log entry 12). -/
def execSkp (x : Nibble) (s : State) : Result := .next (s.advance.skipIf (s.getKey x))

/-- SKNP Vx (R181): the key numbered by the x field. -/
def execSknp (x : Nibble) (s : State) : Result := .next (s.advance.skipIf (!s.getKey x))

/-- The lowest-numbered pressed key (R112: scanned in ascending order, the first pressed one wins). -/
def State.firstKey (s : State) : Option Nat := (List.range Config.nKeys).find? fun k => s.getKey (BitVec.ofNat 4 k)

/-- The step of mode AwaitingKey (R112): no fetch and no change of PC. -/
def State.keyScan (s : State) : State :=
  match s.firstKey with
  | some k => (s.setV s.kwreg (BitVec.ofNat 8 k)).setMode .running
  | none => s

/-- One timer decremented toward 0, never below (R21, R182). -/
def tickDown (b : Byte) : Byte := if b.toNat > 0 then b - 1 else b

/-- `tick` (R182), in every mode. -/
def State.tick (s : State) : State := (s.setDt (tickDown s.dt)).setSt (tickDown s.st)

/-- The key a host's key number names: masked to 4 bits (R184). -/
def maskKey (k : Nat) : Nibble := BitVec.ofNat 4 k

/-- `setKeyDown(k)` (R184). -/
def State.setKeyDown (s : State) (k : Nat) : State := s.setKey (maskKey k) true

/-- `setKeyUp(k)` (R184). -/
def State.setKeyUp (s : State) (k : Nat) : State := s.setKey (maskKey k) false

/-- `sound_on`: 1 exactly when ST > 0 (R36; log entry 24). -/
def State.soundOn (s : State) : Bool := decide (s.st.toNat > 0)

end Sys2Proof.Machine
end

