-- ==== Sys2Proof/Machine/Report.lean ====
section
/-! DEFINITION. Diagnostics and fault codes as the host sees them (spec/60_exceptions.md R192 to R196). A diagnostic
changes no state and no state holds it (R192, decision D9): it is a function of the state before the step and of
the instruction (log entry 9). -/

namespace Sys2Proof.Machine

open Sys2Proof

/-- The two diagnostics of R192. -/
inductive DiagnosticKind where
  /-- Code 1: op = 0 and kk not E0 or EE (R193). -/
  | unsupportedSys
  /-- Code 2: the word decodes to UNMAPPED (R194). -/
  | unmappedOpcode
  deriving DecidableEq, Repr

/-- The diagnostic record (code, addr, word) of R192. -/
structure Diagnostic where
  kind : DiagnosticKind
  addr : Word
  word : Word
  deriving DecidableEq, Repr

/-- The code column of R192. -/
def diagnosticCode : DiagnosticKind → Nat
  | .unsupportedSys => 1
  | .unmappedOpcode => 2

/-- The code column of R196, in the three bits of R28. DESIGN CHOICE: where no fault is recorded it is 0; R27 and R28
give that case the name None and no number (log entry 26). -/
def faultCode : FaultCause → BitVec 3
  | .none => 0
  | .fetchBounds => 1
  | .memBounds => 2
  | .stackOverflow => 3
  | .stackUnderflow => 4

/-- What executing `i` from `s` reports (R126, R194): SYS and UNMAPPED words report themselves, every other
instruction reports nothing (R195). -/
def reportOf (i : Instr) (s : State) : Option Diagnostic :=
  match i with
  | .sys nnn => some ⟨.unsupportedSys, s.pc, encode (.sys nnn)⟩
  | .unmapped w => some ⟨.unmappedOpcode, s.pc, w⟩
  | .cls _ | .ret _ | .jp _ | .jpV0 _ | .call _ | .seImm _ _ | .seReg _ _ _ | .sneImm _ _ | .sneReg _ _ _ => none
  | .ldImm _ _ | .ldReg _ _ | .ldI _ | .ldVxDt _ | .ldVxK _ | .ldDtVx _ | .ldStVx _ | .ldF _ | .ldB _ => none
  | .storeRegs _ | .loadRegs _ | .addImm _ _ | .addReg _ _ | .addI _ | .orReg _ _ | .andReg _ _ => none
  | .xorReg _ _ | .subReg _ _ | .shrReg _ _ | .subnReg _ _ | .shlReg _ _ | .rnd _ _ | .drw _ _ _ => none
  | .skp _ | .sknp _ => none

end Sys2Proof.Machine
end

