-- ==== Sys2Proof/Machine/Cycle.lean ====
section
/-! DEFINITION. The step (spec/41_step_cycle.md): fetch, decode, execute in mode Running, the key-wait scan in mode
AwaitingKey, nothing in mode Faulted. -/

namespace Sys2Proof.Machine

open Sys2Proof

/-- The condition of FetchBounds is PC > 0xFFE, so that both bytes of a fetch are inside (R47, R113). -/
def State.canFetch (s : State) : Bool := decide (s.pc.toNat ≤ 0xFFE)

/-- `MemRead(PC, 2)`, decoded (R43, R66, R113). -/
def State.fetched (s : State) : Instr := decode (Memory.readWord s.mem s.pc.toNat)

/-- The three cases of R111, over the execution `run` of one instruction. FetchBounds is tested before the fetch and
records the word 0 (R113, R196, R198). -/
def cycle (run : Instr → State → Result) (s : State) : Result :=
  match s.mode with
  | .faulted => .next s
  | .awaitingKey => .next s.keyScan
  | .running => if s.canFetch then run s.fetched s else raise .fetchBounds 0 s

/-- Execution with the draw given (R120): only RND uses it. -/
def execDraw (draw : Byte) (i : Instr) (s : State) : Result :=
  match i with
  | .rnd x kk => rndWith draw x kk s
  | i => exec i s

/-- `step(draw)` (R111, R120), the draw an input. -/
def stepDraw (draw : Byte) (s : State) : Result := cycle (execDraw draw) s

/-- What a step reports to the host (R118, R120): at most one diagnostic, and only from mode Running. -/
def stepReport (s : State) : Option Diagnostic :=
  match s.mode with
  | .faulted => none
  | .awaitingKey => none
  | .running => if s.canFetch then reportOf s.fetched s else none

/-- `w` stored where the next step fetches, high byte first, and the machine running, so that the next step fetches
it. Where PC is past 0xFFE nothing can be fetched (R113) and nothing is stored (log entry 16). -/
def State.placeWord (s : State) (w : Word) : State :=
  if s.canFetch then
    (s.setMem (Memory.writeBytes s.mem s.pc.toNat [w.extractLsb' 8 8, w.extractLsb' 0 8])).setMode .running
  else s

end Sys2Proof.Machine
end

