-- ==== Sys2Proof/Machine/Step.lean ====
section
/-! DEFINITION. The host's step: `step` of R111 with the draw taken from the free value (R34, R120; log entry 8). -/

namespace Sys2Proof.Machine

open Sys2Proof

/-- One call of `step` (R111). -/
def step (s : State) : Host.Outcome State Fault Refusal := cycle exec s

/-- `s` with the instruction `w` of `nbits` bits stored where `step` fetches next (log entry 16). -/
def State.withFetchWord (s : State) (nbits w : Nat) : State := s.placeWord (BitVec.ofNat 16 (w % 2 ^ nbits))

end Sys2Proof.Machine
end

