-- ==== Sys2Proof/Machine/TextEncoder.lean ====
section
/-! DEFINITION. The text front end of the instruction encoder (spec/40_encoder.md R85 to R101): `EncodeLine` and
`EncodeProgram`. The mapper it calls is `encodeForm` (Decode.lean). It has no state (R35): a line's result is a
function of that line's text. Text is a list of characters (log entry 20). -/

namespace Sys2Proof.TextEncoder

open Sys2Proof

/-- A token: characters between separators. -/
abbrev Token := List Char

/-! ### Lines and tokens (R85, R86, R87) -/

/-- Space, tab, carriage return and comma separate tokens (R86, decision D16). -/
def isSeparator (c : Char) : Bool := c == ' ' || c == '\t' || c == '\r' || c == ','

/-- A token that has gathered characters is emitted; an empty one does not arise (R86). -/
def flush (cur : Token) : List Token := if cur.isEmpty then [] else [cur]

/-- The tokens of the rest of a line, `cur` being the token read so far. -/
def tokensFrom (cur : Token) : List Char → List Token
  | [] => flush cur
  | c :: cs => if isSeparator c then flush cur ++ tokensFrom [] cs else tokensFrom (cur ++ [c]) cs

/-- The lines of the rest of a text, `cur` being the line read so far; a line feed ends a line (R85). -/
def linesFrom (cur : List Char) : List Char → List (List Char)
  | [] => [cur]
  | c :: cs => if c == '\n' then cur :: linesFrom [] cs else linesFrom (cur ++ [c]) cs

/-- The lines of a text (R85). -/
def lines (text : List Char) : List (List Char) := linesFrom [] text

/-- a..z to A..Z (R87). -/
def upperChar (c : Char) : Char :=
  if 'a'.toNat ≤ c.toNat ∧ c.toNat ≤ 'z'.toNat then Char.ofNat (c.toNat - 32) else c

/-- The tokens of a line, mnemonic and operands normalized upward (R86, R87, decision D17). -/
def tokens (line : List Char) : List Token := (tokensFrom [] line).map fun t => t.map upperChar

/-! ### Token classes (R88) -/

/-- The value of a hexadecimal digit 0..9, A..F. -/
def hexDigit (c : Char) : Option Nat :=
  if '0'.toNat ≤ c.toNat ∧ c.toNat ≤ '9'.toNat then some (c.toNat - '0'.toNat)
  else if 'A'.toNat ≤ c.toNat ∧ c.toNat ≤ 'F'.toNat then some (c.toNat - 'A'.toNat + 10)
  else none

/-- REG(r): exactly `V` and one hexadecimal digit. -/
def regOf (t : Token) : Option Nibble :=
  match t with
  | ['V', c] => (hexDigit c).map (BitVec.ofNat 4)
  | _ => none

/-- The value of a run of hexadecimal digits, `acc` being the value so far. -/
def hexFrom (acc : Nat) : List Char → Option Nat
  | [] => some acc
  | c :: cs =>
    match hexDigit c with
    | some d => hexFrom (16 * acc + d) cs
    | none => none

/-- HEX(v): one or more hexadecimal digits. -/
def hexOf (t : Token) : Option Nat := if t.isEmpty then none else hexFrom 0 t

/-- HEX(v) with a value that fits `bits` bits; range is part of classification (R90, R92, decision D18). -/
def fitsOf (bits : Nat) (t : Token) : Option (BitVec bits) :=
  match hexOf t with
  | some v => if v < 2 ^ bits then some (BitVec.ofNat bits v) else none
  | none => none

/-! ### Mnemonics (R89) -/

/-- The 19 mnemonics. -/
inductive Mnemonic where
  | CLS | RET | JP | CALL | SE | SNE | LD | ADD | OR | AND | XOR | SUB | SHR | SUBN | SHL | RND | DRW | SKP | SKNP
  deriving DecidableEq, Repr

/-- Their spellings. -/
def mnemonicNames : List (Token × Mnemonic) := [
  (['C', 'L', 'S'], .CLS), (['R', 'E', 'T'], .RET), (['J', 'P'], .JP), (['C', 'A', 'L', 'L'], .CALL),
  (['S', 'E'], .SE), (['S', 'N', 'E'], .SNE), (['L', 'D'], .LD), (['A', 'D', 'D'], .ADD), (['O', 'R'], .OR),
  (['A', 'N', 'D'], .AND), (['X', 'O', 'R'], .XOR), (['S', 'U', 'B'], .SUB), (['S', 'H', 'R'], .SHR),
  (['S', 'U', 'B', 'N'], .SUBN), (['S', 'H', 'L'], .SHL), (['R', 'N', 'D'], .RND), (['D', 'R', 'W'], .DRW),
  (['S', 'K', 'P'], .SKP), (['S', 'K', 'N', 'P'], .SKNP)]

/-- The mnemonic a token spells. -/
def mnemonicOf (t : Token) : Option Mnemonic := (mnemonicNames.find? fun p => p.1 == t).map (·.2)

/-! ### Form selection (R90) -/

/-- What the form table asks of one operand position. -/
inductive Pat where
  /-- REG, into the field x. -/
  | regX
  /-- REG, into the field y. -/
  | regY
  /-- REG(0): the register V0 exactly (R93). -/
  | v0
  /-- ADDR, into nnn. -/
  | addr
  /-- BYTE, into kk. -/
  | byte
  /-- NIB, into n. -/
  | nib
  /-- LIT: the token is exactly this text. -/
  | lit (s : Token)
  deriving DecidableEq, Repr

/-- The operand fields gathered so far; a field a form does not list stays 0 and is ignored (R83). -/
structure Fields where
  x : Nibble
  y : Nibble
  kk : Byte
  nnn : Addr
  n : Nibble
  deriving DecidableEq, Repr

/-- No field gathered yet. -/
def noFields : Fields := ⟨0, 0, 0, 0, 0⟩

/-- One token against one position: the fields with that position's added, or no match. -/
def matchPat (f : Fields) (p : Pat) (t : Token) : Option Fields :=
  match p with
  | .regX => (regOf t).map fun r => { f with x := r }
  | .regY => (regOf t).map fun r => { f with y := r }
  | .v0 => if regOf t = some 0 then some f else none
  | .addr => (fitsOf 12 t).map fun v => { f with nnn := v }
  | .byte => (fitsOf 8 t).map fun v => { f with kk := v }
  | .nib => (fitsOf 4 t).map fun v => { f with n := v }
  | .lit s => if t = s then some f else none

/-- Operand tokens against the positions of a row; the counts must be equal (R90). -/
def matchPats (f : Fields) : List Pat → List Token → Option Fields
  | [], [] => some f
  | p :: ps, t :: ts =>
    match matchPat f p t with
    | some g => matchPats g ps ts
    | none => none
  | _, _ => none

/-- A row of the form table: the mnemonic, its operand positions, and the form number of R83. -/
structure FormRow where
  mnemonic : Mnemonic
  pats : List Pat
  form : Nat
  deriving DecidableEq, Repr

/-- The form table of R90, in its order. -/
def formRows : List FormRow := [
  ⟨.CLS, [], 1⟩,
  ⟨.RET, [], 2⟩,
  ⟨.JP, [.addr], 3⟩,
  ⟨.JP, [.v0, .addr], 4⟩,
  ⟨.CALL, [.addr], 5⟩,
  ⟨.SE, [.regX, .regY], 7⟩,
  ⟨.SE, [.regX, .byte], 6⟩,
  ⟨.SNE, [.regX, .regY], 9⟩,
  ⟨.SNE, [.regX, .byte], 8⟩,
  ⟨.LD, [.regX, .regY], 11⟩,
  ⟨.LD, [.regX, .lit ['D', 'T']], 13⟩,
  ⟨.LD, [.regX, .lit ['K']], 14⟩,
  ⟨.LD, [.regX, .lit ['[', 'I', ']']], 20⟩,
  ⟨.LD, [.regX, .byte], 10⟩,
  ⟨.LD, [.lit ['I'], .addr], 12⟩,
  ⟨.LD, [.lit ['D', 'T'], .regX], 15⟩,
  ⟨.LD, [.lit ['S', 'T'], .regX], 16⟩,
  ⟨.LD, [.lit ['F'], .regX], 17⟩,
  ⟨.LD, [.lit ['B'], .regX], 18⟩,
  ⟨.LD, [.lit ['[', 'I', ']'], .regX], 19⟩,
  ⟨.ADD, [.regX, .regY], 22⟩,
  ⟨.ADD, [.regX, .byte], 21⟩,
  ⟨.ADD, [.lit ['I'], .regX], 23⟩,
  ⟨.OR, [.regX, .regY], 24⟩,
  ⟨.AND, [.regX, .regY], 25⟩,
  ⟨.XOR, [.regX, .regY], 26⟩,
  ⟨.SUB, [.regX, .regY], 27⟩,
  ⟨.SHR, [.regX, .regY], 28⟩,
  ⟨.SUBN, [.regX, .regY], 29⟩,
  ⟨.SHL, [.regX, .regY], 30⟩,
  ⟨.RND, [.regX, .byte], 31⟩,
  ⟨.DRW, [.regX, .regY, .nib], 32⟩,
  ⟨.SKP, [.regX], 33⟩,
  ⟨.SKNP, [.regX], 34⟩]

/-- The rows of one mnemonic tried top to bottom: the form and the fields of the first that matches (R90, decision
D21). -/
def selectForm (m : Mnemonic) (ops : List Token) : List FormRow → Option (Nat × Fields)
  | [] => none
  | r :: rs =>
    if r.mnemonic = m then
      match matchPats noFields r.pats ops with
      | some f => some (r.form, f)
      | none => selectForm m ops rs
    else selectForm m ops rs

/-- The operand count of a mnemonic's longest row (R99). -/
def maxOperands (m : Mnemonic) : Nat :=
  (formRows.filter fun r => r.mnemonic == m).foldl (fun k r => max k r.pats.length) 0

/-! ### Errors (R94 to R99) -/

/-- The reasons of a line's diagnostic. -/
inductive Reason where
  /-- "missing one or more arguments" (R95). -/
  | missingArguments
  /-- "nnn missing" (R96). -/
  | nnnMissing
  /-- "unknown mnemonic" (R97). -/
  | unknownMnemonic
  /-- "too many arguments" (R99). -/
  | tooManyArguments
  deriving DecidableEq, Repr

/-- The reason strings (R95, R96, R97, R99). -/
def reasonText : Reason → String
  | .missingArguments => "missing one or more arguments"
  | .nnnMissing => "nnn missing"
  | .unknownMnemonic => "unknown mnemonic"
  | .tooManyArguments => "too many arguments"

/-- Is the token, if there is one, not an ADDR? -/
def notAddr (t : Option Token) : Bool :=
  match t with
  | some t => (fitsOf 12 t).isNone
  | none => true

/-- Where no row matched: did the failure lie in an ADDR position (R96, decision D21)? -/
def addrFailure (m : Mnemonic) (ops : List Token) : Bool :=
  match m with
  | .JP =>
    match ops with
    | [] => true
    | [t] => notAddr (some t)
    | t :: u :: _ => regOf t == some 0 && notAddr (some u)
  | .CALL => notAddr ops[0]?
  | .LD => ops[0]? == some ['I'] && notAddr ops[1]?
  | .CLS | .RET | .SE | .SNE | .ADD | .OR | .AND | .XOR | .SUB | .SHR | .SUBN | .SHL | .RND | .DRW | .SKP | .SKNP =>
    false

/-- What one line gives: one word, one diagnostic's reason, or nothing (R81, R98). -/
inductive LineResult where
  | word (w : Word)
  | diagnostic (r : Reason)
  | nothing
  deriving DecidableEq, Repr

/-- A known mnemonic with its operand tokens (R90, R95, R96, R99). -/
def encodeOperands (m : Mnemonic) (ops : List Token) : LineResult :=
  if ops.length > maxOperands m then .diagnostic .tooManyArguments
  else
    match selectForm m ops formRows with
    | some (form, f) =>
      match encodeForm form f.x f.y f.kk f.nnn f.n with
      | some w => .word w
      | none => .nothing
    | none => if addrFailure m ops then .diagnostic .nnnMissing else .diagnostic .missingArguments

/-- The tokens of a line, first the mnemonic (R86, R97, R98). -/
def encodeTokens : List Token → LineResult
  | [] => .nothing
  | t :: ops =>
    match mnemonicOf t with
    | some m => encodeOperands m ops
    | none => .diagnostic .unknownMnemonic

/-- `EncodeLine` (R82, R85 to R99). -/
def encodeLine (line : List Char) : LineResult := encodeTokens (tokens line)

/-! ### A whole text (R100) -/

/-- A diagnostic: line number, the line as read, reason (R94). -/
structure LineDiagnostic where
  number : Nat
  line : List Char
  reason : Reason
  deriving DecidableEq, Repr

/-- The lines from line number `k` on: the words and the diagnostics, each in line order; a failing line never
stops the run (R100, R101). -/
def encodeLines (k : Nat) : List (List Char) → List Word × List LineDiagnostic
  | [] => ([], [])
  | l :: ls =>
    let rest := encodeLines (k + 1) ls
    match encodeLine l with
    | .word w => (w :: rest.1, rest.2)
    | .diagnostic r => (rest.1, ⟨k, l, r⟩ :: rest.2)
    | .nothing => rest

/-- `EncodeProgram(text)`: lines are numbered from 1 (R85, R100). -/
def encodeProgram (text : List Char) : List Word × List LineDiagnostic := encodeLines 1 (lines text)

end Sys2Proof.TextEncoder
end

