-- ==== Sys2Proof/Machine/Agents.lean ====
section
/-! DEFINITION. The three agents and the host interface (spec/10_state.md R13, spec/20_memory.md R52, R53,
spec/60_exceptions.md R206): every operation is one atomic transition, and an execution is one total order of
transitions, in any number and any order. A device that was never initialized refuses everything but
`initialize` (R33). -/

namespace Sys2Proof.Machine

open Sys2Proof

/-- A device: `none` between construction and the first `initialize`, when every piece of state is unspecified
(R33; log entry 1). -/
abbrev Device := Option State

/-- The operations that change state (R206). The draw of a `step` is an input (R120). -/
inductive Event where
  /-- `initialize` (R216). -/
  | initializeMachine
  /-- `loadProgram(bytes)` (R218). -/
  | loadProgram (bytes : List Byte)
  /-- `step`, with the byte RND draws (R111, R120). -/
  | step (draw : Byte)
  /-- The timer agent's `tick` (R182). -/
  | tick
  /-- `setKeyDown(k)` (R184). -/
  | setKeyDown (k : Nat)
  /-- `setKeyUp(k)` (R184). -/
  | setKeyUp (k : Nat)
  deriving DecidableEq, Repr

/-- The largest program, 0xE00 bytes (R218). -/
abbrev maxProgram : Nat := Config.memSize - Config.origin

/-- The bytes of a program copied to memory from 0x200 on; nothing else changes and memory is not cleared first
(R218). -/
def State.loadBytes (s : State) (bytes : List Byte) : State :=
  s.setMem (Memory.writeBytes s.mem Config.origin bytes)

/-- `loadProgram(bytes)` (R218): a sequence that does not fit is refused whole (decision D11, log entry 19). -/
def loadProgram (bytes : List Byte) (s : State) : Result :=
  if bytes.length > maxProgram then .refused .programTooLong else .next (s.loadBytes bytes)

/-- One transition of an initialized machine with the parameter FONT (R5, R206). -/
def State.transition (font : Font) (e : Event) (s : State) : Result :=
  match e with
  | .initializeMachine => .next (State.initialized font s.draws)
  | .loadProgram bytes => loadProgram bytes s
  | .step draw => stepDraw draw s
  | .tick => .next s.tick
  | .setKeyDown k => .next (s.setKeyDown k)
  | .setKeyUp k => .next (s.setKeyUp k)

/-- One transition of a device (R33, R206). -/
def transition (font : Font) (e : Event) (d : Device) : Result :=
  match d, e with
  | none, .initializeMachine => .next (State.initialized font 0)
  | none, _ => .refused .notInitialized
  | some s, e => s.transition font e

/-- An execution: a total order of transitions, each from the state the one before left (R53). It stops at the
first transition that has no next state. -/
def execution (font : Font) : List Event → Device → Host.Outcome Device Fault Refusal
  | [], d => .next d
  | e :: es, d =>
    match transition font e d with
    | .next s => execution font es (some s)
    | .fault f => .fault f
    | .refused r => .refused r

/-- The host's display read, the RGBA form (R175, R206). -/
def readDisplay (on off : Rgb) (d : Device) : Host.Outcome (List Byte) Fault Refusal :=
  match d with
  | some s => .next (rgbaExport on off s.disp)
  | none => .refused .notInitialized

/-- The host's read of FAULT (R27, R206). -/
def readFault (d : Device) : Host.Outcome FaultRecord Fault Refusal :=
  match d with
  | some s => .next s.fault
  | none => .refused .notInitialized

/-- Words as a program's bytes, high byte first (R104). -/
def wordsToBytes (words : List Word) : List Byte :=
  words.flatMap fun w => [w.extractLsb' 8 8, w.extractLsb' 0 8]

/-- The encoder's words loaded: word k at 0x200 + 2k (R104). -/
def loadWords (words : List Word) (s : State) : Result := loadProgram (wordsToBytes words) s

end Sys2Proof.Machine
end

