-- ==== Sys2Proof/Safety.lean ====
section
/-! DEFINITION. What counts as a safe run, in the terms claims use: the invariant of spec/10_state.md R32, and what it
means for a transition to leave a part of the state unchanged. -/

namespace Sys2Proof.Machine

open Sys2Proof

/-- The invariant of R32, with what the types do not say already: SP names a stack cell, PC and every stack cell are
at most 0x1002, MEM is in its canonical form, and FAULT records a cause exactly in mode Faulted (R25, R27). The
other bounds of R32 (V, DT, ST, I, KWREG, pixels, keys) are the fields' types. -/
abbrev State.Inv (s : State) : Prop :=
  s.sp.toNat < Config.stackSlots ∧ s.pc.toNat ≤ 0x1002 ∧
  (∀ (k : Nat) (h : k < Config.stackSlots), s.stack[k].toNat ≤ 0x1002) ∧
  Memory.wf s.mem ∧ (s.mode = .faulted ↔ s.fault.cause ≠ .none)

/-- A device meets the invariant: it was never initialized, or its state does. -/
def deviceInv (d : Device) : Prop := ∀ s, d = some s → s.Inv

/-- The machine has not met one of the four faults of R196. -/
abbrev State.safe (s : State) : Prop := s.mode ≠ .faulted

/-- The pieces of the state tuple of R14, and the model's own count of draws. -/
inductive Part where
  | v | i | pc | sp | stack | dt | st | mem | keys | disp | mode | kwreg | fault | draws
  deriving DecidableEq, Repr

/-- Two states agree on a piece. For MEM: every byte reads the same. -/
def sameOn (s t : State) : Part → Prop
  | .v => ∀ x, t.getV x = s.getV x
  | .i => t.i = s.i
  | .pc => t.pc = s.pc
  | .sp => t.sp = s.sp
  | .stack => t.stack = s.stack
  | .dt => t.dt = s.dt
  | .st => t.st = s.st
  | .mem => ∀ a, Memory.read t.mem a = Memory.read s.mem a
  | .keys => t.keys = s.keys
  | .disp => t.disp = s.disp
  | .mode => t.mode = s.mode
  | .kwreg => t.kwreg = s.kwreg
  | .fault => t.fault = s.fault
  | .draws => t.draws = s.draws

/-- The frame of a transition from `s` to `t` that may write the pieces `ps`: every other piece is unchanged. -/
def sameOutside (ps : List Part) (s t : State) : Prop := ∀ p, p ∉ ps → sameOn s t p

/-- V registers other than those in `xs` are unchanged. -/
def sameVOutside (xs : List Nibble) (s t : State) : Prop := ∀ x, x ∉ xs → t.getV x = s.getV x

end Sys2Proof.Machine
end

