-- ==== Sys2Proof/Certificates/Slice0/Obligations.lean ====
section
/-! DEFINITION. The statements for the provers. `s` is the state before the step and `t` the state after it;
`sameOutside ps s t` says that every piece of the state but those in `ps` is unchanged (Safety.lean), every byte of
memory read through `Memory.read`. Where a clause rests on a choice the spec marks as its own decision, or on one the
model makes, the docstring names the decision or the log entry. -/

open Sys2Proof Sys2Proof.Machine

/-! ### The binary format -/

/-- R61, R62, R65, R66, R67, R69. Every bit of an instruction's word comes back: decoding the word of a well-formed
instruction gives that instruction, at every value of every field; and the decoder is total, gives only well-formed
instructions, and loses no bit of any word. The model's Instr keeps the fields the decoder does not test (log entry
10). -/
def Obligations.EncodeAndDecodeAreInverse : Prop :=
  (∀ i : Instr, i.wf = true → decode (encode i) = i) ∧
  (∀ w : Word, (decode w).wf = true ∧ encode (decode w) = w)

/-- R65, R66, R68, R69: the decoder written as cases of op, n and kk takes, for each of the 65536 words, the first row
of the opcode table whose mask and value the word matches. -/
def Obligations.DecodeTakesTheFirstMatchingRow : Prop :=
  ∀ w : Word, firstRow w = some (decode w).row

/-- The bits of a word that `EncodeForm` reproduces: all but the ones the decoder does not test (R67). -/
def Sys2Proof.testedBits (form : Nat) : Word :=
  if form = 1 ∨ form = 2 then 0xF0FF else if form = 7 ∨ form = 9 then 0xFFF0 else 0xFFFF

/-- R72, with R83 and R67 (decision D8): for every form and all operands, the word `EncodeForm` emits decodes to that
form with the same operands; and encoding what a word of a form decodes to gives the word back, up to the bits the
decoder does not test. 0x01E0 and 0x00E0 are both CLS. -/
def Obligations.EncodeFormAndDecodeAgree : Prop :=
  (∀ (form : Nat) (x y : Nibble) (kk : Byte) (nnn : Addr) (n : Nibble), 1 ≤ form → form ≤ 34 →
    ∃ i w, formInstr form x y kk nnn n = some i ∧ encodeForm form x y kk nnn n = some w ∧
      decode w = i ∧ i.row = form ∧ i.emitted = true) ∧
  (∀ w : Word, (decode w).row ≤ 34 →
    encodeForm (decode w).row (fieldX w) (fieldY w) (fieldKK w) (fieldNNN w) (fieldN w) =
      some (w &&& testedBits (decode w).row)) ∧
  (decode 0x01E0).row = (decode 0x00E0).row

/-- Words written out from the patterns of R65, at least one of each format, decode to the instructions they stand for
(spec/95_test_vectors.md V-ENC-1). -/
def Obligations.WrittenWordsDecode : Prop :=
  decode 0x00E0 = .cls 0 ∧ decode 0x220A = .call 0x20A ∧ decode 0x6120 = .ldImm 1 0x20 ∧
  decode 0x8AB4 = .addReg 0xA 0xB ∧ decode 0xD015 = .drw 0 1 5 ∧ decode 0xF155 = .storeRegs 1 ∧
  decode 0xE59E = .skp 5 ∧ decode 0x0123 = .sys 0x123 ∧ decode 0x8128 = .unmapped 0x8128

/-- R71: a decoder always consumes exactly two bytes, and nothing else decides how many. -/
def Obligations.DecoderConsumesTwoBytes : Prop :=
  (∀ (hi lo : Byte) (rest : List Byte), decodeBytes (hi :: lo :: rest) = .ok (decode (hi ++ lo), rest)) ∧
  (∀ (i : Instr) (rest : List Byte), i.wf = true → decodeBytes (encodeBytes i ++ rest) = .ok (i, rest)) ∧
  (∀ bs : List Byte, bs.length < 2 → decodeBytes bs = .error .truncated)

/-! ### The text front end of the encoder -/

namespace Sys2Proof.TextEncoder

/-- A hexadecimal digit as a character. -/
def digitChar (d : Nibble) : Char := Char.ofNat (if d.toNat < 10 then 48 + d.toNat else 55 + d.toNat)

/-- A register as a token. -/
def regToken (x : Nibble) : Token := ['V', digitChar x]

/-- A byte as a token of two digits. -/
def byteToken (kk : Byte) : Token := [digitChar (kk.extractLsb' 4 4), digitChar (kk.extractLsb' 0 4)]

/-- An address as a token of three digits. -/
def addrToken (a : Addr) : Token :=
  [digitChar (a.extractLsb' 8 4), digitChar (a.extractLsb' 4 4), digitChar (a.extractLsb' 0 4)]

/-- A way to write each form, in the operand order of R90; SYS and UNMAPPED words have no spelling (R105). -/
def spelling : Instr → List Token
  | .cls _ => [['C', 'L', 'S']]
  | .ret _ => [['R', 'E', 'T']]
  | .jp nnn => [['J', 'P'], addrToken nnn]
  | .jpV0 nnn => [['J', 'P'], regToken 0, addrToken nnn]
  | .call nnn => [['C', 'A', 'L', 'L'], addrToken nnn]
  | .seImm x kk => [['S', 'E'], regToken x, byteToken kk]
  | .seReg x y _ => [['S', 'E'], regToken x, regToken y]
  | .sneImm x kk => [['S', 'N', 'E'], regToken x, byteToken kk]
  | .sneReg x y _ => [['S', 'N', 'E'], regToken x, regToken y]
  | .ldImm x kk => [['L', 'D'], regToken x, byteToken kk]
  | .ldReg x y => [['L', 'D'], regToken x, regToken y]
  | .ldI nnn => [['L', 'D'], ['I'], addrToken nnn]
  | .ldVxDt x => [['L', 'D'], regToken x, ['D', 'T']]
  | .ldVxK x => [['L', 'D'], regToken x, ['K']]
  | .ldDtVx x => [['L', 'D'], ['D', 'T'], regToken x]
  | .ldStVx x => [['L', 'D'], ['S', 'T'], regToken x]
  | .ldF x => [['L', 'D'], ['F'], regToken x]
  | .ldB x => [['L', 'D'], ['B'], regToken x]
  | .storeRegs x => [['L', 'D'], ['[', 'I', ']'], regToken x]
  | .loadRegs x => [['L', 'D'], regToken x, ['[', 'I', ']']]
  | .addImm x kk => [['A', 'D', 'D'], regToken x, byteToken kk]
  | .addReg x y => [['A', 'D', 'D'], regToken x, regToken y]
  | .addI x => [['A', 'D', 'D'], ['I'], regToken x]
  | .orReg x y => [['O', 'R'], regToken x, regToken y]
  | .andReg x y => [['A', 'N', 'D'], regToken x, regToken y]
  | .xorReg x y => [['X', 'O', 'R'], regToken x, regToken y]
  | .subReg x y => [['S', 'U', 'B'], regToken x, regToken y]
  | .shrReg x y => [['S', 'H', 'R'], regToken x, regToken y]
  | .subnReg x y => [['S', 'U', 'B', 'N'], regToken x, regToken y]
  | .shlReg x y => [['S', 'H', 'L'], regToken x, regToken y]
  | .rnd x kk => [['R', 'N', 'D'], regToken x, byteToken kk]
  | .drw x y n => [['D', 'R', 'W'], regToken x, regToken y, [digitChar n]]
  | .skp x => [['S', 'K', 'P'], regToken x]
  | .sknp x => [['S', 'K', 'N', 'P'], regToken x]
  | .sys _ => []
  | .unmapped _ => []

/-- Tokens as a line, one space between neighbours. -/
def joinTokens : List Token → List Char
  | [] => []
  | [t] => t
  | t :: u :: ts => t ++ ' ' :: joinTokens (u :: ts)

end Sys2Proof.TextEncoder

open Sys2Proof.TextEncoder

/-- R2, R83, R90, R86, R87 (the separators are decision D16, the matching order decision D21): every instruction the
encoder can emit, at every operand value, has a line (the tokens of its spelling with a space between them) that
encodes to its word, and the machine's decoder reads that word as the same instruction. -/
def Obligations.TextEncoderReachesEveryForm : Prop :=
  ∀ i : Instr, i.emitted = true →
    tokens (joinTokens (spelling i)) = spelling i ∧
    encodeLine (joinTokens (spelling i)) = .word (encode i) ∧ decode (encode i) = i

/-- R105 with R83: whatever the line, a word the encoder gives is the word of one of the 34 forms; it never gives a
SYS word, an UNMAPPED word, or a word with a bit set that the decoder does not test. -/
def Obligations.EncoderEmitsOnlyForms : Prop :=
  ∀ (line : List Char) (w : Word), encodeLine line = .word w →
    ∃ i : Instr, i.emitted = true ∧ encode i = w ∧ decode w = i

/-- R98 (decision D19): a line gives neither a word nor a diagnostic exactly when it holds separators only. -/
def Obligations.OnlyBlankLinesGiveNothing : Prop :=
  ∀ line : List Char, encodeLine line = .nothing ↔ ∀ c ∈ line, isSeparator c = true

/-- R86 (decision D16): separators split a line into the tokens of its parts; no token is empty and none holds a
separator; a line without separators is one token. -/
def Obligations.SeparatorsSplitLines : Prop :=
  (∀ (a b : List Char) (c : Char), isSeparator c = true →
    tokensFrom [] (a ++ c :: b) = tokensFrom [] a ++ tokensFrom [] b) ∧
  (∀ (line : List Char) (t : Token), t ∈ tokensFrom [] line → t ≠ [] ∧ ∀ c ∈ t, isSeparator c = false) ∧
  (∀ line : List Char, line ≠ [] → (∀ c ∈ line, isSeparator c = false) → tokensFrom [] line = [line])

/-- R100, R94, R85 (lines numbered from 1: decision D22): a text is encoded line by line. A text without a line feed is
one line, numbered 1: it gives that line's word, or a diagnostic that quotes the line, or nothing, as `encodeLine` says.
Two texts joined by a line feed give the words of both in order and the diagnostics of both in order, the second
text's lines numbered on; a failing line stops nothing. -/
def Obligations.ProgramIsEncodedLineByLine : Prop :=
  (∀ text : List Char, '\n' ∉ text →
    lines text = [text] ∧
    (∀ w, encodeLine text = .word w → encodeProgram text = ([w], [])) ∧
    (∀ r, encodeLine text = .diagnostic r → encodeProgram text = ([], [⟨1, text, r⟩])) ∧
    (encodeLine text = .nothing → encodeProgram text = ([], []))) ∧
  (∀ a b : List Char,
    lines (a ++ '\n' :: b) = lines a ++ lines b ∧
    encodeProgram (a ++ '\n' :: b) =
      ((encodeProgram a).1 ++ (encodeProgram b).1,
       (encodeProgram a).2 ++ (encodeProgram b).2.map fun d => { d with number := d.number + (lines a).length }))

/-- R106: the two lines of the source, by the steps the rule works out: tokens, token classes, form, word. -/
def Obligations.SourceLinesEncode : Prop :=
  (tokens "LD V1, 20".toList = [['L', 'D'], ['V', '1'], ['2', '0']] ∧
    regOf ['V', '1'] = some 1 ∧ fitsOf 8 ['2', '0'] = some 0x20 ∧
    selectForm .LD [['V', '1'], ['2', '0']] formRows = some (10, ⟨1, 0, 0x20, 0, 0⟩) ∧
    encodeForm 10 1 0 0x20 0 0 = some 0x6120 ∧ encodeLine "LD V1, 20".toList = .word 0x6120) ∧
  (tokens "ADD VA, VB".toList = [['A', 'D', 'D'], ['V', 'A'], ['V', 'B']] ∧
    regOf ['V', 'A'] = some 10 ∧ regOf ['V', 'B'] = some 11 ∧
    selectForm .ADD [['V', 'A'], ['V', 'B']] formRows = some (22, ⟨10, 11, 0, 0, 0⟩) ∧
    encodeForm 22 10 11 0 0 0 = some 0x8AB4 ∧ encodeLine "ADD VA, VB".toList = .word 0x8AB4)

/-- R92, R95, R96 (decisions D18, D21): in each of the ten forms that take a number, a hexadecimal operand too large
for its field (BYTE in SE, SNE, LD, ADD, RND; NIB in DRW; ADDR in JP, JP V0, CALL, LD I) gives a diagnostic, never a
truncated word. -/
def Obligations.OversizedOperandGivesADiagnostic : Prop :=
  ∀ (x y : Nibble) (t : Token) (v : Nat), hexOf t = some v →
    (255 < v →
      encodeTokens [['S', 'E'], regToken x, t] = .diagnostic .missingArguments ∧
      encodeTokens [['S', 'N', 'E'], regToken x, t] = .diagnostic .missingArguments ∧
      encodeTokens [['L', 'D'], regToken x, t] = .diagnostic .missingArguments ∧
      encodeTokens [['A', 'D', 'D'], regToken x, t] = .diagnostic .missingArguments ∧
      encodeTokens [['R', 'N', 'D'], regToken x, t] = .diagnostic .missingArguments) ∧
    (15 < v → encodeTokens [['D', 'R', 'W'], regToken x, regToken y, t] = .diagnostic .missingArguments) ∧
    (4095 < v →
      encodeTokens [['J', 'P'], t] = .diagnostic .nnnMissing ∧
      encodeTokens [['J', 'P'], regToken 0, t] = .diagnostic .nnnMissing ∧
      encodeTokens [['C', 'A', 'L', 'L'], t] = .diagnostic .nnnMissing ∧
      encodeTokens [['L', 'D'], ['I'], t] = .diagnostic .nnnMissing)

/-! ### Reset and the host's operations -/

/-- R33, R216 (KWREG, FAULT: decisions D11, D5; the default font: decision D12, log entry 6): what `initialize`
leaves, for every font and whatever was drawn before; that the state after reset is it with the default font; that
`initialize` answers it on every device, never initialized or in any state and mode, Faulted included (R25, R201),
whose count of draws (the model's own, log entry 8) goes on; and that before the first `initialize` no other operation
acts (log entry 1). -/
def Obligations.InitializeGivesTheResetValues : Prop :=
  (∀ (font : Font) (k : Nat), ∃ s, s = State.initialized font k ∧
    (∀ x, s.getV x = 0) ∧ s.i = 0 ∧ s.pc = 0x200 ∧ s.sp = 0 ∧ (∀ (k : Nat) (h : k < 16), s.stack[k] = 0) ∧
    s.dt = 0 ∧ s.st = 0 ∧ (∀ (a : Nat) (h : a < 80), Memory.read s.mem a = font[a]) ∧
    (∀ a, 80 ≤ a → a < 4096 → Memory.read s.mem a = 0) ∧ (∀ k, s.getKey k = false) ∧
    (∀ x y, Display.pixel s.disp x y = false) ∧ s.mode = .running ∧ s.kwreg = 0 ∧ s.fault.cause = .none) ∧
  State.initialized fontTable 0 = State.reset ∧
  (∀ font : Font, transition font .initializeMachine none = .next (State.initialized font 0)) ∧
  (∀ (font : Font) (s : State),
    transition font .initializeMachine (some s) = .next (State.initialized font s.draws) ∧
    (State.initialized font s.draws).draws = s.draws) ∧
  (∀ (font : Font) (e : Event), e ≠ .initializeMachine → transition font e none = .refused .notInitialized)

/-- R32 at reset: the invariant holds after `initialize`, whatever the font, and so at the reset state. -/
def Obligations.ResetMeetsTheInvariant : Prop :=
  State.reset.Inv ∧ ∀ (font : Font) (k : Nat), (State.initialized font k).Inv

/-- R218 (decision D11, log entry 19): a program that fits is copied to 0x200 on and nothing else changes, every other
byte of memory included; a longer one is refused whole. -/
def Obligations.LoadProgramCopiesBytes : Prop :=
  ∀ (bytes : List Byte) (s : State),
    (bytes.length ≤ 3584 → ∃ t, loadProgram bytes s = .next t ∧ sameOutside [.mem] s t ∧
      (∀ (k : Nat) (h : k < bytes.length), Memory.read t.mem (0x200 + k) = bytes[k]) ∧
      (∀ a, (a < 0x200 ∨ 0x200 + bytes.length ≤ a) → Memory.read t.mem a = Memory.read s.mem a)) ∧
    (3584 < bytes.length → loadProgram bytes s = .refused .programTooLong)

/-- R175 (the colours are parameters, decision D25, log entry 22): the export is 8192 bytes, and pixel (x, y) is the
four bytes from 4 * (64 * y + x) on. -/
def Obligations.ExportIsRowMajorRgba : Prop :=
  ∀ (on off : Rgb) (d : Display), (rgbaExport on off d).length = 8192 ∧
    ∀ x y, x < 64 → y < 32 →
      ∃ c, c = (if Display.pixel d x y then on else off) ∧
        (rgbaExport on off d)[4 * (64 * y + x)]? = some c.r ∧
        (rgbaExport on off d)[4 * (64 * y + x) + 1]? = some c.g ∧
        (rgbaExport on off d)[4 * (64 * y + x) + 2]? = some c.b ∧
        (rgbaExport on off d)[4 * (64 * y + x) + 3]? = some 0xFF

/-- R182, R21 ("never below 0"): n ticks take n from each timer, never below 0, whatever the mode, and change nothing
else. -/
def Obligations.TicksCountDownToZero : Prop :=
  ∀ (n : Nat) (s : State), ∃ t, t = State.tick^[n] s ∧
    t.dt.toNat = s.dt.toNat - n ∧ t.st.toNat = s.st.toNat - n ∧ sameOutside [.dt, .st] s t

/-- R184 (decision D28): a key event sets or clears the key its number masked to four bits names, and nothing else. -/
def Obligations.KeyEventsSetOneKey : Prop :=
  ∀ (k : Nat) (s : State),
    (∀ j : Nibble, (s.setKeyDown k).getKey j = if j.toNat = k % 16 then true else s.getKey j) ∧
    (∀ j : Nibble, (s.setKeyUp k).getKey j = if j.toNat = k % 16 then false else s.getKey j) ∧
    sameOutside [.keys] s (s.setKeyDown k) ∧ sameOutside [.keys] s (s.setKeyUp k)

/-! ### The step -/

/-- R43, R66, R113: in mode Running with PC at most 0xFFE, a step is the execution of the instruction the two bytes at
PC and PC + 1 decode to, from the same state (the advance of PC is inside `exec`). -/
def Obligations.StepRunsTheDecodedInstruction : Prop :=
  ∀ (s : State) (i : Instr), s.mode = .running → s.pc.toNat ≤ 0xFFE →
    decodeBytes [Memory.read s.mem s.pc.toNat, Memory.read s.mem (s.pc.toNat + 1)] = .ok (i, []) →
    step s = exec i s

/-- R43: the byte at the lower address holds bits 15..8 of the fetched word, the byte at PC + 1 bits 7..0. -/
def Obligations.FetchIsBigEndian : Prop :=
  ∀ s : State, ∃ w : Word, w = Memory.readWord s.mem s.pc.toNat ∧ s.fetched = decode w ∧
    w.extractLsb' 8 8 = Memory.read s.mem s.pc.toNat ∧ w.extractLsb' 0 8 = Memory.read s.mem (s.pc.toNat + 1)

/-- R113, R47, R116 (decisions D2, D5): a step in Running with PC past 0xFFE faults with FetchBounds and the word 0 and
changes nothing else; a step in Faulted changes nothing and reports nothing. -/
def Obligations.StepsThatDoNotFetch : Prop :=
  (∀ s : State, s.mode = .running → 0xFFE < s.pc.toNat →
    ∃ t, step s = .next t ∧ t.mode = .faulted ∧ t.fault = ⟨.fetchBounds, s.pc, 0⟩ ∧
      sameOutside [.mode, .fault] s t ∧ stepReport s = none) ∧
  (∀ s : State, s.mode = .faulted → step s = .next s ∧ stepReport s = none)

/-- R112: in mode AwaitingKey a step finds the lowest-numbered pressed key, writes its number to V[KWREG] and returns to
Running; with no key pressed nothing changes. Either way nothing is fetched, PC stays, nothing is reported. -/
def Obligations.KeyWaitTakesTheLowestKey : Prop :=
  ∀ s : State, s.mode = .awaitingKey →
    stepReport s = none ∧
    ((∀ k, s.getKey k = false) → step s = .next s) ∧
    (∀ k : Nibble, s.getKey k = true → (∀ j : Nibble, j.toNat < k.toNat → s.getKey j = false) →
      ∃ t, step s = .next t ∧ t.mode = .running ∧ (t.getV s.kwreg).toNat = k.toNat ∧
        sameVOutside [s.kwreg] s t ∧ sameOutside [.v, .mode] s t)

/-- R192 to R195 (the record and its codes: decision D9, log entry 9): a step reports only from Running, only for a
word of the classes SYS (row 35) and UNMAPPED (row 36), with that word and its address, and such a step only moves
PC on by 2. Every other step reports nothing. -/
def Obligations.OnlySysAndUnmappedReport : Prop :=
  ∀ s : State,
    (∀ d, stepReport s = some d →
      s.mode = .running ∧ s.pc.toNat ≤ 0xFFE ∧ d.addr = s.pc ∧ d.word = Memory.readWord s.mem s.pc.toNat ∧
      firstRow d.word = some (match d.kind with | .unsupportedSys => 35 | .unmappedOpcode => 36) ∧
      ∃ t, step s = .next t ∧ t.pc = s.pc + 2 ∧ sameOutside [.pc] s t) ∧
    (s.mode = .running → s.pc.toNat ≤ 0xFFE → 35 ≤ s.fetched.row → ∃ d, stepReport s = some d)

/-- R120, R34 (the draw is a free value: log entry 8): the host's step is the step with the draw the count selects, and
an instruction other than RND gives the same result whatever byte is drawn. -/
def Obligations.OnlyRndUsesTheDraw : Prop :=
  ∀ s : State, step s = stepDraw (Config.randomByte s.draws) s ∧
    ((∀ x kk, s.fetched ≠ .rnd x kk) → ∀ d e : Byte, stepDraw d s = stepDraw e s)

/-- Log entry 16, R43, R104: a word placed where the step fetches is the instruction the very next step runs. -/
def Obligations.PlacedWordRunsNext : Prop :=
  ∀ (s : State) (w : Word), s.pc.toNat ≤ 0xFFE →
    decodeTableWord 16 w.toNat = some (decode w) ∧
    step (s.withFetchWord 16 w.toNat) = exec (decode w) (s.withFetchWord 16 w.toNat) ∧
    sameOutside [.mem, .mode] s (s.withFetchWord 16 w.toNat) ∧
    ∀ a, a ≠ s.pc.toNat → a ≠ s.pc.toNat + 1 →
      Memory.read (s.withFetchWord 16 w.toNat).mem a = Memory.read s.mem a

/-! ### Rules about the whole machine -/

/-- R32: a step keeps the invariant: SP names a stack cell, PC and the stack cells are at most 0x1002, memory is in its
canonical form, and a cause is recorded exactly in mode Faulted. -/
def Obligations.StepKeepsTheInvariant : Prop :=
  ∀ s t : State, s.Inv → step s = .next t → t.Inv

/-- R32, R52: so does every transition of every agent, whatever the font, the program loaded, the draw and the key. -/
def Obligations.EveryTransitionKeepsTheInvariant : Prop :=
  ∀ (font : Font) (e : Event) (d : Device) (t : State), deviceInv d → transition font e d = .next t → t.Inv

/-- R120: the step is total. From every state that meets the invariant, a step, whatever it draws, has a next state: no
instruction is refused and the model's own fault (log entry 18) cannot happen. -/
def Obligations.StepIsTotal : Prop :=
  ∀ s : State, s.Inv → (∃ t, step s = .next t) ∧ ∀ draw : Byte, ∃ t, stepDraw draw s = .next t

/-- R53, R32: in every total order of transitions, from a device never initialized or in a state that meets the
invariant, every state reached meets it, and the execution stops only by a refused host operation: any but `initialize` before the
first one, or a program that does not fit (decision D11, log entries 1 and 19). -/
def Obligations.EveryInterleavingIsSafe : Prop :=
  ∀ (font : Font) (es : List Event) (d : Device), deviceInv d →
    (∃ d', execution font es d = .next d' ∧ deviceInv d') ∨
    execution font es d = .refused .notInitialized ∨ execution font es d = .refused .programTooLong

/-- R197 (decision D5, log entry 2): a step that enters Faulted changes MODE and FAULT and nothing else; FAULT holds the
instruction's address, which PC still is, and the instruction's word (0 for FetchBounds). -/
def Obligations.FaultsArePrecise : Prop :=
  ∀ s t : State, s.mode = .running → step s = .next t → t.mode = .faulted →
    sameOutside [.mode, .fault] s t ∧ t.fault.addr = s.pc ∧ t.fault.cause ≠ .none ∧
    ((t.fault.cause = .fetchBounds ∧ t.fault.word = 0 ∧ 0xFFE < s.pc.toNat) ∨
     (t.fault.cause ≠ .fetchBounds ∧ t.fault.word = Memory.readWord s.mem s.pc.toNat ∧ s.pc.toNat ≤ 0xFFE))

/-- The condition on which each instruction faults, with its cause (R47, R127, R129, R196). -/
def Sys2Proof.Machine.faultOf (i : Instr) (s : State) : FaultCause :=
  match i with
  | .ret _ => if s.sp.toNat = 0 then .stackUnderflow else .none
  | .call _ => if 15 ≤ s.sp.toNat then .stackOverflow else .none
  | .drw _ _ n => if 1 ≤ n.toNat ∧ 0xFFF < s.i.toNat + n.toNat - 1 then .memBounds else .none
  | .ldB _ => if 0xFFF < s.i.toNat + 2 then .memBounds else .none
  | .storeRegs x => if 0xFFF < s.i.toNat + x.toNat then .memBounds else .none
  | .loadRegs x => if 0xFFF < s.i.toNat + x.toNat then .memBounds else .none
  | _ => .none

/-- R47, R196, R197, R198 (decisions D3, D4, D5, D31): the instructions that fault, exactly when, with which cause, and
that a fault changes only MODE and FAULT. Where the condition does not hold, no fault is raised. -/
def Obligations.InstructionsFaultExactlyWhen : Prop :=
  ∀ (i : Instr) (s : State),
    (faultOf i s ≠ .none → ∃ t, exec i s = .next t ∧ t.mode = .faulted ∧ t.fault = ⟨faultOf i s, s.pc, encode i⟩ ∧
      sameOutside [.mode, .fault] s t) ∧
    (faultOf i s = .none → ∀ t, exec i s = .next t → t.fault = s.fault ∧ (t.mode = .faulted → s.mode = .faulted))

/-- R16, R17, R19, R21, R22, R23, R24, R25, R26: which instructions can write each piece of state, by row of the opcode
table. No instruction writes KEY; only CLS and DRW write DISP; only RET and CALL write SP, only CALL the stack cells;
only LD I,nnn, ADD I,Vx and LD F,Vx write I; only LD DT,Vx writes DT and only LD ST,Vx writes ST; only LD B,Vx and
LD [I],Vx write memory; only LD Vx,K writes KWREG or enters the key wait; only RND draws. -/
def Obligations.EachPieceHasItsWriters : Prop :=
  ∀ (i : Instr) (s t : State), exec i s = .next t →
    t.keys = s.keys ∧
    (i.row ∉ [1, 32] → t.disp = s.disp) ∧
    (i.row ∉ [2, 5] → t.sp = s.sp) ∧
    (i.row ≠ 5 → t.stack = s.stack) ∧
    (i.row ∉ [12, 17, 23] → t.i = s.i) ∧
    (i.row ≠ 15 → t.dt = s.dt) ∧
    (i.row ≠ 16 → t.st = s.st) ∧
    (i.row ∉ [18, 19] → ∀ a, Memory.read t.mem a = Memory.read s.mem a) ∧
    (i.row ≠ 14 → t.kwreg = s.kwreg ∧ (t.mode = s.mode ∨ t.mode = .faulted)) ∧
    (i.row ≠ 31 → t.draws = s.draws)

/-- The V registers an instruction can write: its destination, and VF for the six that write the flag (R15, R16). -/
def Sys2Proof.Machine.vWritten : Instr → List Nibble
  | .ldImm x _ | .addImm x _ | .ldVxDt x | .orReg x _ | .andReg x _ | .xorReg x _ | .rnd x _ => [x]
  | .ldReg _ y => [y]
  | .addReg x _ | .subReg x _ | .subnReg x _ | .shlReg x _ => [x, 15]
  | .shrReg x y => [x, y, 15]
  | .drw _ _ _ => [15]
  | .loadRegs x => (List.range (x.toNat + 1)).map (BitVec.ofNat 4)
  | _ => []

/-- R15, R16: an instruction changes no V register but its destination, and VF only if it is one of the six that write
the flag or VF is its destination. -/
def Obligations.OnlyDestinationsAndTheFlagAreWritten : Prop :=
  ∀ (i : Instr) (s t : State), exec i s = .next t → sameVOutside (vWritten i) s t

/-- R22, R41, R50: two memories in canonical form that read the same everywhere are the same memory. -/
def Obligations.MemoryIsItsContents : Prop :=
  ∀ m n : Memory, Memory.wf m → Memory.wf n → (∀ a, Memory.read m a = Memory.read n a) → m = n

/-- The byte at `a` after `i` has stored from `s`: for LD [I],Vx the register whose number is the distance from I, for
LD B,Vx that decimal digit of Vx, and elsewhere the byte that was there (R44, R164, R165). -/
def Sys2Proof.Machine.byteAfter (i : Instr) (s : State) (a : Nat) : Byte :=
  match i with
  | .storeRegs x =>
    if s.i.toNat ≤ a ∧ a ≤ s.i.toNat + x.toNat then s.getV (BitVec.ofNat 4 (a - s.i.toNat)) else Memory.read s.mem a
  | .ldB x =>
    if a = s.i.toNat then BitVec.ofNat 8 ((s.getV x).toNat / 100)
    else if a = s.i.toNat + 1 then BitVec.ofNat 8 ((s.getV x).toNat / 10 % 10)
    else if a = s.i.toNat + 2 then BitVec.ofNat 8 ((s.getV x).toNat % 10)
    else Memory.read s.mem a
  | _ => Memory.read s.mem a

/-- R56: what LD [I],Vx or LD B,Vx stores over the two bytes at the already-advanced PC, both, one or neither of them,
is what the next step fetches and runs. The condition is that the store does not fault (decision D3). -/
def Obligations.NextFetchSeesTheStore : Prop :=
  ∀ (i : Instr) (x : Nibble) (s : State), (i = .storeRegs x ∨ i = .ldB x) → faultOf i s = .none →
    ∃ (t : State) (w : Word), exec i s = .next t ∧ t.pc = s.pc + 2 ∧
      w = byteAfter i s t.pc.toNat ++ byteAfter i s (t.pc.toNat + 1) ∧ t.fetched = decode w ∧
      (s.mode = .running → t.pc.toNat ≤ 0xFFE → step t = exec (decode w) t)

/-- R130: CALL followed immediately by RET comes back to the instruction after the CALL, with SP as it was. -/
def Obligations.CallThenRetComesBack : Prop :=
  ∀ (nnn : Addr) (x : Nibble) (s : State), s.sp.toNat < 15 →
    ∃ t u, exec (.call nnn) s = .next t ∧ exec (.ret x) t = .next u ∧
      u.pc = s.pc + 2 ∧ u.sp = s.sp ∧ sameOutside [.pc, .stack] s u

/-! ### Control transfer -/

/-- R126, R68 (the diagnostic's channel: decision D9): SYS moves PC on by 2, reports, and changes nothing else. Zeroed
memory is SYS. -/
def Obligations.SysIsAReportingNoOp : Prop :=
  decode 0x0000 = .sys 0 ∧
  ∀ (nnn : Addr) (s : State), Instr.sysWf nnn = true →
    decode (0x0#4 ++ nnn) = .sys nnn ∧
    ∃ t, exec (.sys nnn) s = .next t ∧ t.pc = s.pc + 2 ∧ sameOutside [.pc] s t ∧
      reportOf (.sys nnn) s = some ⟨.unsupportedSys, s.pc, 0x0#4 ++ nnn⟩

/-- R194 (the diagnostic's record and channel: decision D9, log entry 9): a word of R69 moves PC on by 2, is reported,
and changes nothing else. -/
def Obligations.UnmappedIsAReportingNoOp : Prop :=
  ∀ (w : Word) (s : State), Instr.unmappedWf w = true →
    decode w = .unmapped w ∧
    ∃ t, exec (.unmapped w) s = .next t ∧ t.pc = s.pc + 2 ∧ sameOutside [.pc] s t ∧
      reportOf (.unmapped w) s = some ⟨.unmappedOpcode, s.pc, w⟩

/-- R127 (both faults' policy: decision D4; SP above 15: log entry 18): RET pops the cell SP names, which keeps its
value; with SP = 0 it faults and changes only MODE and FAULT; with SP above 15 the model stops. -/
def Obligations.RetPopsTheStack : Prop :=
  ∀ (x : Nibble) (s : State),
    (∀ h : s.sp.toNat < 16, 1 ≤ s.sp.toNat → ∃ t, exec (.ret x) s = .next t ∧
      t.pc = s.stack[s.sp.toNat] ∧ t.sp.toNat = s.sp.toNat - 1 ∧ sameOutside [.pc, .sp] s t) ∧
    (s.sp.toNat = 0 → ∃ t, exec (.ret x) s = .next t ∧ t.mode = .faulted ∧
      t.fault = ⟨.stackUnderflow, s.pc, encode (.ret x)⟩ ∧ sameOutside [.mode, .fault] s t) ∧
    (16 ≤ s.sp.toNat → exec (.ret x) s = .fault .noStackCell)

/-- R128, R129 (the overflow fault: decision D4): JP sets PC; CALL pushes the next instruction's address into the cell
above SP and sets PC; with SP at 15 or more it faults and changes only MODE and FAULT. -/
def Obligations.JumpAndCallSetPc : Prop :=
  ∀ (nnn : Addr) (s : State),
    (∃ t, exec (.jp nnn) s = .next t ∧ t.pc.toNat = nnn.toNat ∧ sameOutside [.pc] s t) ∧
    (s.sp.toNat < 15 → ∃ t, exec (.call nnn) s = .next t ∧ t.pc.toNat = nnn.toNat ∧ t.sp.toNat = s.sp.toNat + 1 ∧
      t.stack[s.sp.toNat + 1]? = some (s.pc + 2) ∧
      (∀ k, k ≠ s.sp.toNat + 1 → t.stack[k]? = s.stack[k]?) ∧ sameOutside [.pc, .sp, .stack] s t) ∧
    (15 ≤ s.sp.toNat → ∃ t, exec (.call nnn) s = .next t ∧ t.mode = .faulted ∧
      t.fault = ⟨.stackOverflow, s.pc, encode (.call nnn)⟩ ∧ sameOutside [.mode, .fault] s t)

/-- R131: JP V0,nnn jumps to (nnn + V0) mod 4096 and changes nothing else. -/
def Obligations.JumpWithOffsetWraps : Prop :=
  ∀ (nnn : Addr) (s : State), decode (0xB#4 ++ nnn) = .jpV0 nnn ∧
    ∃ t, exec (.jpV0 nnn) s = .next t ∧ t.pc.toNat = (nnn.toNat + (s.getV 0).toNat) % 4096 ∧ sameOutside [.pc] s t

/-- R132, R133: the immediate skips take PC to a + 4 when their comparison holds and to a + 2 when not, and change
nothing else. -/
def Obligations.ImmediateSkips : Prop :=
  ∀ (x : Nibble) (kk : Byte) (s : State),
    decode (0x3#4 ++ (x ++ kk)) = .seImm x kk ∧ decode (0x4#4 ++ (x ++ kk)) = .sneImm x kk ∧
    (∃ t, exec (.seImm x kk) s = .next t ∧ t.pc = s.pc + (if s.getV x = kk then 4 else 2) ∧ sameOutside [.pc] s t) ∧
    (∃ t, exec (.sneImm x kk) s = .next t ∧ t.pc = s.pc + (if s.getV x ≠ kk then 4 else 2) ∧ sameOutside [.pc] s t)

/-- R134, R135 (n not tested: decision D8), R180, R181 (the key is the one the x field numbers: decision D7, log entry
12): the register and key skips. -/
def Obligations.RegisterAndKeySkips : Prop :=
  ∀ (x y n : Nibble) (s : State),
    (∃ t, exec (.seReg x y n) s = .next t ∧ t.pc = s.pc + (if s.getV x = s.getV y then 4 else 2) ∧
      sameOutside [.pc] s t) ∧
    (∃ t, exec (.sneReg x y n) s = .next t ∧ t.pc = s.pc + (if s.getV x ≠ s.getV y then 4 else 2) ∧
      sameOutside [.pc] s t) ∧
    (∃ t, exec (.skp x) s = .next t ∧ t.pc = s.pc + (if s.getKey x = true then 4 else 2) ∧ sameOutside [.pc] s t) ∧
    (∃ t, exec (.sknp x) s = .next t ∧ t.pc = s.pc + (if s.getKey x = false then 4 else 2) ∧ sameOutside [.pc] s t)

/-! ### Load, arithmetic, logic, shift, random -/

/-- R141, R142: LD Vx,kk, and ADD Vx,kk, which wraps modulo 256 and writes no flag; VF changes only where x is F. -/
def Obligations.ImmediateLoadAndAdd : Prop :=
  ∀ (x : Nibble) (kk : Byte) (s : State),
    decode (0x6#4 ++ (x ++ kk)) = .ldImm x kk ∧ decode (0x7#4 ++ (x ++ kk)) = .addImm x kk ∧
    (∃ t, exec (.ldImm x kk) s = .next t ∧ t.getV x = kk ∧ t.pc = s.pc + 2 ∧
      sameVOutside [x] s t ∧ sameOutside [.v, .pc] s t) ∧
    (∃ t, exec (.addImm x kk) s = .next t ∧ (t.getV x).toNat = ((s.getV x).toNat + kk.toNat) % 256 ∧
      t.pc = s.pc + 2 ∧ sameVOutside [x] s t ∧ sameOutside [.v, .pc] s t)

/-- R143: LD Vx,Vy writes Vy. -/
def Obligations.RegisterLoadWritesVy : Prop :=
  ∀ (x y : Nibble) (s : State), decode (0x8#4 ++ (x ++ (y ++ 0x0#4))) = .ldReg x y ∧
    ∃ t, exec (.ldReg x y) s = .next t ∧ t.getV y = s.getV x ∧ t.pc = s.pc + 2 ∧
      sameVOutside [y] s t ∧ sameOutside [.v, .pc] s t

/-- R144 (that OR writes no VF is the spec's derivation from D0's row), R145, R146: the logic instructions, which write
VF only where x is F. -/
def Obligations.LogicWritesVx : Prop :=
  ∀ (x y : Nibble) (s : State),
    (∃ t, exec (.orReg x y) s = .next t ∧ t.getV x = s.getV x ||| s.getV y ∧ t.pc = s.pc + 2 ∧
      sameVOutside [x] s t ∧ sameOutside [.v, .pc] s t) ∧
    (∃ t, exec (.andReg x y) s = .next t ∧ t.getV x = s.getV x &&& s.getV y ∧ t.pc = s.pc + 2 ∧
      sameVOutside [x] s t ∧ sameOutside [.v, .pc] s t) ∧
    (∃ t, exec (.xorReg x y) s = .next t ∧ t.getV x = s.getV x ^^^ s.getV y ∧ t.pc = s.pc + 2 ∧
      sameVOutside [x] s t ∧ sameOutside [.v, .pc] s t)

/-- R147 (with x = F the sum overwrites the carry: decision D6): ADD Vx,Vy. -/
def Obligations.AddSetsCarry : Prop :=
  ∀ (x y : Nibble) (s : State), ∃ t, exec (.addReg x y) s = .next t ∧
    (t.getV x).toNat = ((s.getV x).toNat + (s.getV y).toNat) % 256 ∧
    (x ≠ 15 → t.getV 15 = if 255 < (s.getV x).toNat + (s.getV y).toNat then 1 else 0) ∧
    t.pc = s.pc + 2 ∧ sameVOutside [x, 15] s t ∧ sameOutside [.v, .pc] s t

/-- R148 (x or y = F: decision D6): SUB. VF, tested on the wrapped difference, is 1 exactly when old Vy > old Vx; with
x = F the flag overwrites the difference. -/
def Obligations.SubSetsBorrow : Prop :=
  ∀ (x y : Nibble) (s : State), ∃ t, exec (.subReg x y) s = .next t ∧
    (x ≠ 15 → (t.getV x).toNat = ((s.getV x).toNat + 256 - (s.getV y).toNat) % 256) ∧
    t.getV 15 = (if (s.getV x).toNat < (s.getV y).toNat then 1 else 0) ∧
    t.pc = s.pc + 2 ∧ sameVOutside [x, 15] s t ∧ sameOutside [.v, .pc] s t

/-- R149 (x or y = F: decision D6): SHR shifts Vy and copies it to Vx; VF is the bit shifted out unless x or y is F. -/
def Obligations.ShrShiftsVy : Prop :=
  ∀ (x y : Nibble) (s : State), ∃ t, exec (.shrReg x y) s = .next t ∧
    (y ≠ 15 → (t.getV y).toNat = (s.getV y).toNat / 2 ∧ (t.getV x).toNat = (s.getV y).toNat / 2) ∧
    (y ≠ 15 → x ≠ 15 → (t.getV 15).toNat = (s.getV y).toNat % 2) ∧
    (y = 15 → t.getV 15 = 0 ∧ t.getV x = 0) ∧
    t.pc = s.pc + 2 ∧ sameVOutside [x, y, 15] s t ∧ sameOutside [.v, .pc] s t

/-- R150 (x or y = F: decision D6): SUBN. VF is 1 exactly when Vy > Vx strictly; with x or y = F the subtraction reads
the new flag. -/
def Obligations.SubnSetsGreater : Prop :=
  ∀ (x y : Nibble) (s : State), ∃ (t : State) (f : Byte), exec (.subnReg x y) s = .next t ∧
    f = (if (s.getV x).toNat < (s.getV y).toNat then 1 else 0) ∧
    (x ≠ 15 → y ≠ 15 → t.getV x = s.getV y - s.getV x ∧ t.getV 15 = f) ∧
    (x = 15 → y ≠ 15 → t.getV 15 = s.getV y - f) ∧
    (x ≠ 15 → y = 15 → t.getV x = f - s.getV x ∧ t.getV 15 = f) ∧
    (x = 15 → y = 15 → t.getV 15 = 0) ∧
    t.pc = s.pc + 2 ∧ sameVOutside [x, 15] s t ∧ sameOutside [.v, .pc] s t

/-- R151 (x = F: decision D6): SHL doubles Vx in place and never touches Vy; VF is the bit shifted out, and with x = F
twice that bit. -/
def Obligations.ShlShiftsVx : Prop :=
  ∀ (x y : Nibble) (s : State), ∃ t, exec (.shlReg x y) s = .next t ∧
    (x ≠ 15 → (t.getV x).toNat = 2 * (s.getV x).toNat % 256 ∧ (t.getV 15).toNat = (s.getV x).toNat / 128) ∧
    (x = 15 → (t.getV 15).toNat = 2 * ((s.getV x).toNat / 128)) ∧
    t.pc = s.pc + 2 ∧ sameVOutside [x, 15] s t ∧ sameOutside [.v, .pc] s t

/-- R153, R120 (the draw is a free value, decision D10, log entry 8; nothing here rests on what it is): RND writes the
draw ANDed with kk, so the bits clear in kk are clear, and writes nothing else; with the draw given as an input the
same holds of that byte. -/
def Obligations.RndMasksTheDraw : Prop :=
  ∀ (x : Nibble) (kk : Byte) (s : State),
    (∃ t, exec (.rnd x kk) s = .next t ∧ t.getV x = Config.randomByte s.draws &&& kk ∧
      (∀ b, kk.getLsbD b = false → (t.getV x).getLsbD b = false) ∧ t.draws = s.draws + 1 ∧
      t.pc = s.pc + 2 ∧ sameVOutside [x] s t ∧ sameOutside [.v, .pc, .draws] s t) ∧
    (∀ draw : Byte, ∃ t, execDraw draw (.rnd x kk) s = .next t ∧ t.getV x = draw &&& kk ∧
      t.pc = s.pc + 2 ∧ sameVOutside [x] s t ∧ sameOutside [.v, .pc, .draws] s t)

/-! ### Index register and memory -/

/-- R161, R162 (that no VF is written is the spec's derivation from D0's row), R163: LD I,nnn; ADD I,Vx modulo 4096;
LD F,Vx multiplies all eight bits of Vx by 5 without a wrap. -/
def Obligations.IndexArithmetic : Prop :=
  ∀ (x : Nibble) (nnn : Addr) (s : State),
    (∃ t, exec (.ldI nnn) s = .next t ∧ t.i = nnn ∧ t.pc = s.pc + 2 ∧ sameOutside [.i, .pc] s t) ∧
    (∃ t, exec (.addI x) s = .next t ∧ t.i.toNat = (s.i.toNat + (s.getV x).toNat) % 4096 ∧
      t.pc = s.pc + 2 ∧ sameOutside [.i, .pc] s t) ∧
    (∃ t, exec (.ldF x) s = .next t ∧ t.i.toNat = 5 * (s.getV x).toNat ∧
      t.pc = s.pc + 2 ∧ sameOutside [.i, .pc] s t)

/-- R164, R47 (the bounds fault: decision D3): LD B,Vx stores the three decimal digits at I, I + 1, I + 2 and nothing
else. -/
def Obligations.BcdStoresThreeDigits : Prop :=
  ∀ (x : Nibble) (s : State), s.i.toNat + 2 ≤ 0xFFF →
    ∃ t, exec (.ldB x) s = .next t ∧
      (Memory.read t.mem s.i.toNat).toNat = (s.getV x).toNat / 100 ∧
      (Memory.read t.mem (s.i.toNat + 1)).toNat = (s.getV x).toNat / 10 % 10 ∧
      (Memory.read t.mem (s.i.toNat + 2)).toNat = (s.getV x).toNat % 10 ∧
      (∀ a, (a < s.i.toNat ∨ s.i.toNat + 2 < a) → Memory.read t.mem a = Memory.read s.mem a) ∧
      t.pc = s.pc + 2 ∧ sameOutside [.mem, .pc] s t

/-- R165, R47 (the bounds fault: decision D3; that I is unchanged is the spec's derivation from D0's row): LD [I],Vx
stores V0..Vx at I..I + x and nothing else. -/
def Obligations.StoreRegistersAtI : Prop :=
  ∀ (x : Nibble) (s : State), s.i.toNat + x.toNat ≤ 0xFFF →
    ∃ t, exec (.storeRegs x) s = .next t ∧
      (∀ k : Nibble, k.toNat ≤ x.toNat → Memory.read t.mem (s.i.toNat + k.toNat) = s.getV k) ∧
      (∀ a, (a < s.i.toNat ∨ s.i.toNat + x.toNat < a) → Memory.read t.mem a = Memory.read s.mem a) ∧
      t.pc = s.pc + 2 ∧ sameOutside [.mem, .pc] s t

/-- R166, R47 (the bounds fault: decision D3): LD Vx,[I] loads V0..Vx from I..I + x, leaves the registers above Vx, I
and memory. -/
def Obligations.LoadRegistersFromI : Prop :=
  ∀ (x : Nibble) (s : State), s.i.toNat + x.toNat ≤ 0xFFF →
    ∃ t, exec (.loadRegs x) s = .next t ∧
      (∀ k : Nibble, k.toNat ≤ x.toNat → t.getV k = Memory.read s.mem (s.i.toNat + k.toNat)) ∧
      (∀ k : Nibble, x.toNat < k.toNat → t.getV k = s.getV k) ∧
      t.pc = s.pc + 2 ∧ sameOutside [.v, .pc] s t

/-! ### Display -/

/-- R171 (x not tested: decision D8): CLS clears every pixel and nothing else. -/
def Obligations.ClsClearsTheDisplay : Prop :=
  ∀ (x : Nibble) (s : State), ∃ t, exec (.cls x) s = .next t ∧
    (∀ p q, Display.pixel t.disp p q = false) ∧ t.pc = s.pc + 2 ∧ sameOutside [.disp, .pc] s t

/-- R172, R173, R174 (coordinates read once: decision D29; rows modulo 32: decision D30, log entry 13): DRW. Each of the
8 x n positions of the sprite, wrapped per pixel, is XORed with its bit exactly once; every other pixel is unchanged;
VF is 1 if some set pixel met a set bit, else 0. With n = 0 nothing is drawn and VF is 0. -/
def Obligations.DrawXorsTheSprite : Prop :=
  ∀ (x y n : Nibble) (s : State), (n.toNat = 0 ∨ s.i.toNat + n.toNat - 1 ≤ 0xFFF) →
    ∃ t, exec (.drw x y n) s = .next t ∧
      (∀ row col, row < n.toNat → col < 8 →
        Display.pixel t.disp (((s.getV x).toNat + col) % 64) (((s.getV y).toNat + row) % 32) =
          (Display.pixel s.disp (((s.getV x).toNat + col) % 64) (((s.getV y).toNat + row) % 32) ^^
            (Memory.read s.mem (s.i.toNat + row)).getLsbD (7 - col))) ∧
      (∀ p q, p < 64 → q < 32 →
        (∀ row col, row < n.toNat → col < 8 →
          ¬(p = ((s.getV x).toNat + col) % 64 ∧ q = ((s.getV y).toNat + row) % 32)) →
        Display.pixel t.disp p q = Display.pixel s.disp p q) ∧
      ((∃ row col, row < n.toNat ∧ col < 8 ∧
          Display.pixel s.disp (((s.getV x).toNat + col) % 64) (((s.getV y).toNat + row) % 32) = true ∧
          (Memory.read s.mem (s.i.toNat + row)).getLsbD (7 - col) = true) → t.getV 15 = 1) ∧
      ((∀ row col, row < n.toNat → col < 8 →
          Display.pixel s.disp (((s.getV x).toNat + col) % 64) (((s.getV y).toNat + row) % 32) = true →
          (Memory.read s.mem (s.i.toNat + row)).getLsbD (7 - col) = false) → t.getV 15 = 0) ∧
      t.pc = s.pc + 2 ∧ sameVOutside [15] s t ∧ sameOutside [.v, .disp, .pc] s t

/-! ### Timers and keypad -/

/-- R176, R177: LD Vx,DT reads DT as it is at this step; LD DT,Vx writes any value, and the next tick counts down from
it. -/
def Obligations.DelayTimerMoves : Prop :=
  ∀ (x : Nibble) (s : State),
    decode (0xF#4 ++ (x ++ 0x07#8)) = .ldVxDt x ∧ decode (0xF#4 ++ (x ++ 0x15#8)) = .ldDtVx x ∧
    (∃ t, exec (.ldVxDt x) s = .next t ∧ t.getV x = s.dt ∧ t.pc = s.pc + 2 ∧
      sameVOutside [x] s t ∧ sameOutside [.v, .pc] s t) ∧
    (∃ t, exec (.ldDtVx x) s = .next t ∧ t.dt = s.getV x ∧ t.tick.dt.toNat = (s.getV x).toNat - 1 ∧
      t.pc = s.pc + 2 ∧ sameOutside [.dt, .pc] s t)

/-- R178, R36 (`sound_on` is general knowledge in the spec: decision D14, log entry 24), R179 (that KEY is not looked at
is the spec's derivation): LD ST,Vx writes ST; LD Vx,K enters the key wait with PC past the instruction and Vx not
written. -/
def Obligations.SoundTimerAndKeyWaitEntry : Prop :=
  ∀ (x : Nibble) (s : State),
    (∃ t, exec (.ldStVx x) s = .next t ∧ t.st = s.getV x ∧ (t.soundOn = true ↔ 0 < (s.getV x).toNat) ∧
      t.pc = s.pc + 2 ∧ sameOutside [.st, .pc] s t) ∧
    (∃ t, exec (.ldVxK x) s = .next t ∧ t.mode = .awaitingKey ∧ t.kwreg = x ∧
      t.pc = s.pc + 2 ∧ sameOutside [.mode, .kwreg, .pc] s t)
end

