-- ==== Sys2Proof/Laws/State.lean ====
section
/-! SUPPORT. The small lemmas of the state: one per field per update, and the register accessors over the updates. -/

namespace Sys2Proof.Machine

open Sys2Proof

section Updates

variable (s : State)

/-! `setV` -/
@[simp] theorem State.setV_v (x : Nibble) (b : Byte) : (s.setV x b).v = s.v.set x.toNat b x.isLt := rfl
@[simp] theorem State.setV_i (x : Nibble) (b : Byte) : (s.setV x b).i = s.i := rfl
@[simp] theorem State.setV_pc (x : Nibble) (b : Byte) : (s.setV x b).pc = s.pc := rfl
@[simp] theorem State.setV_sp (x : Nibble) (b : Byte) : (s.setV x b).sp = s.sp := rfl
@[simp] theorem State.setV_stack (x : Nibble) (b : Byte) : (s.setV x b).stack = s.stack := rfl
@[simp] theorem State.setV_dt (x : Nibble) (b : Byte) : (s.setV x b).dt = s.dt := rfl
@[simp] theorem State.setV_st (x : Nibble) (b : Byte) : (s.setV x b).st = s.st := rfl
@[simp] theorem State.setV_mem (x : Nibble) (b : Byte) : (s.setV x b).mem = s.mem := rfl
@[simp] theorem State.setV_keys (x : Nibble) (b : Byte) : (s.setV x b).keys = s.keys := rfl
@[simp] theorem State.setV_disp (x : Nibble) (b : Byte) : (s.setV x b).disp = s.disp := rfl
@[simp] theorem State.setV_mode (x : Nibble) (b : Byte) : (s.setV x b).mode = s.mode := rfl
@[simp] theorem State.setV_kwreg (x : Nibble) (b : Byte) : (s.setV x b).kwreg = s.kwreg := rfl
@[simp] theorem State.setV_fault (x : Nibble) (b : Byte) : (s.setV x b).fault = s.fault := rfl
@[simp] theorem State.setV_draws (x : Nibble) (b : Byte) : (s.setV x b).draws = s.draws := rfl
@[simp] theorem State.getKey_setV (x : Nibble) (b : Byte) (z : Nibble) : (s.setV x b).getKey z = s.getKey z := rfl

/-! `setI` -/
@[simp] theorem State.setI_v (a : Addr) : (s.setI a).v = s.v := rfl
@[simp] theorem State.setI_i (a : Addr) : (s.setI a).i = a := rfl
@[simp] theorem State.setI_pc (a : Addr) : (s.setI a).pc = s.pc := rfl
@[simp] theorem State.setI_sp (a : Addr) : (s.setI a).sp = s.sp := rfl
@[simp] theorem State.setI_stack (a : Addr) : (s.setI a).stack = s.stack := rfl
@[simp] theorem State.setI_dt (a : Addr) : (s.setI a).dt = s.dt := rfl
@[simp] theorem State.setI_st (a : Addr) : (s.setI a).st = s.st := rfl
@[simp] theorem State.setI_mem (a : Addr) : (s.setI a).mem = s.mem := rfl
@[simp] theorem State.setI_keys (a : Addr) : (s.setI a).keys = s.keys := rfl
@[simp] theorem State.setI_disp (a : Addr) : (s.setI a).disp = s.disp := rfl
@[simp] theorem State.setI_mode (a : Addr) : (s.setI a).mode = s.mode := rfl
@[simp] theorem State.setI_kwreg (a : Addr) : (s.setI a).kwreg = s.kwreg := rfl
@[simp] theorem State.setI_fault (a : Addr) : (s.setI a).fault = s.fault := rfl
@[simp] theorem State.setI_draws (a : Addr) : (s.setI a).draws = s.draws := rfl
@[simp] theorem State.getV_setI (a : Addr) (z : Nibble) : (s.setI a).getV z = s.getV z := rfl
@[simp] theorem State.getKey_setI (a : Addr) (z : Nibble) : (s.setI a).getKey z = s.getKey z := rfl

/-! `setPc` -/
@[simp] theorem State.setPc_v (a : Word) : (s.setPc a).v = s.v := rfl
@[simp] theorem State.setPc_i (a : Word) : (s.setPc a).i = s.i := rfl
@[simp] theorem State.setPc_pc (a : Word) : (s.setPc a).pc = a := rfl
@[simp] theorem State.setPc_sp (a : Word) : (s.setPc a).sp = s.sp := rfl
@[simp] theorem State.setPc_stack (a : Word) : (s.setPc a).stack = s.stack := rfl
@[simp] theorem State.setPc_dt (a : Word) : (s.setPc a).dt = s.dt := rfl
@[simp] theorem State.setPc_st (a : Word) : (s.setPc a).st = s.st := rfl
@[simp] theorem State.setPc_mem (a : Word) : (s.setPc a).mem = s.mem := rfl
@[simp] theorem State.setPc_keys (a : Word) : (s.setPc a).keys = s.keys := rfl
@[simp] theorem State.setPc_disp (a : Word) : (s.setPc a).disp = s.disp := rfl
@[simp] theorem State.setPc_mode (a : Word) : (s.setPc a).mode = s.mode := rfl
@[simp] theorem State.setPc_kwreg (a : Word) : (s.setPc a).kwreg = s.kwreg := rfl
@[simp] theorem State.setPc_fault (a : Word) : (s.setPc a).fault = s.fault := rfl
@[simp] theorem State.setPc_draws (a : Word) : (s.setPc a).draws = s.draws := rfl
@[simp] theorem State.getV_setPc (a : Word) (z : Nibble) : (s.setPc a).getV z = s.getV z := rfl
@[simp] theorem State.getKey_setPc (a : Word) (z : Nibble) : (s.setPc a).getKey z = s.getKey z := rfl

/-! `setSp` -/
@[simp] theorem State.setSp_v (k : Byte) : (s.setSp k).v = s.v := rfl
@[simp] theorem State.setSp_i (k : Byte) : (s.setSp k).i = s.i := rfl
@[simp] theorem State.setSp_pc (k : Byte) : (s.setSp k).pc = s.pc := rfl
@[simp] theorem State.setSp_sp (k : Byte) : (s.setSp k).sp = k := rfl
@[simp] theorem State.setSp_stack (k : Byte) : (s.setSp k).stack = s.stack := rfl
@[simp] theorem State.setSp_dt (k : Byte) : (s.setSp k).dt = s.dt := rfl
@[simp] theorem State.setSp_st (k : Byte) : (s.setSp k).st = s.st := rfl
@[simp] theorem State.setSp_mem (k : Byte) : (s.setSp k).mem = s.mem := rfl
@[simp] theorem State.setSp_keys (k : Byte) : (s.setSp k).keys = s.keys := rfl
@[simp] theorem State.setSp_disp (k : Byte) : (s.setSp k).disp = s.disp := rfl
@[simp] theorem State.setSp_mode (k : Byte) : (s.setSp k).mode = s.mode := rfl
@[simp] theorem State.setSp_kwreg (k : Byte) : (s.setSp k).kwreg = s.kwreg := rfl
@[simp] theorem State.setSp_fault (k : Byte) : (s.setSp k).fault = s.fault := rfl
@[simp] theorem State.setSp_draws (k : Byte) : (s.setSp k).draws = s.draws := rfl
@[simp] theorem State.getV_setSp (k : Byte) (z : Nibble) : (s.setSp k).getV z = s.getV z := rfl
@[simp] theorem State.getKey_setSp (k : Byte) (z : Nibble) : (s.setSp k).getKey z = s.getKey z := rfl

/-! `setStack` -/
@[simp] theorem State.setStack_v (k : Nat) (a : Word) : (s.setStack k a).v = s.v := rfl
@[simp] theorem State.setStack_i (k : Nat) (a : Word) : (s.setStack k a).i = s.i := rfl
@[simp] theorem State.setStack_pc (k : Nat) (a : Word) : (s.setStack k a).pc = s.pc := rfl
@[simp] theorem State.setStack_sp (k : Nat) (a : Word) : (s.setStack k a).sp = s.sp := rfl
@[simp] theorem State.setStack_stack (k : Nat) (a : Word) : (s.setStack k a).stack = s.stack.setIfInBounds k a := rfl
@[simp] theorem State.setStack_dt (k : Nat) (a : Word) : (s.setStack k a).dt = s.dt := rfl
@[simp] theorem State.setStack_st (k : Nat) (a : Word) : (s.setStack k a).st = s.st := rfl
@[simp] theorem State.setStack_mem (k : Nat) (a : Word) : (s.setStack k a).mem = s.mem := rfl
@[simp] theorem State.setStack_keys (k : Nat) (a : Word) : (s.setStack k a).keys = s.keys := rfl
@[simp] theorem State.setStack_disp (k : Nat) (a : Word) : (s.setStack k a).disp = s.disp := rfl
@[simp] theorem State.setStack_mode (k : Nat) (a : Word) : (s.setStack k a).mode = s.mode := rfl
@[simp] theorem State.setStack_kwreg (k : Nat) (a : Word) : (s.setStack k a).kwreg = s.kwreg := rfl
@[simp] theorem State.setStack_fault (k : Nat) (a : Word) : (s.setStack k a).fault = s.fault := rfl
@[simp] theorem State.setStack_draws (k : Nat) (a : Word) : (s.setStack k a).draws = s.draws := rfl
@[simp] theorem State.getV_setStack (k : Nat) (a : Word) (z : Nibble) : (s.setStack k a).getV z = s.getV z := rfl
@[simp] theorem State.getKey_setStack (k : Nat) (a : Word) (z : Nibble) : (s.setStack k a).getKey z = s.getKey z := rfl

/-! `setDt` -/
@[simp] theorem State.setDt_v (b : Byte) : (s.setDt b).v = s.v := rfl
@[simp] theorem State.setDt_i (b : Byte) : (s.setDt b).i = s.i := rfl
@[simp] theorem State.setDt_pc (b : Byte) : (s.setDt b).pc = s.pc := rfl
@[simp] theorem State.setDt_sp (b : Byte) : (s.setDt b).sp = s.sp := rfl
@[simp] theorem State.setDt_stack (b : Byte) : (s.setDt b).stack = s.stack := rfl
@[simp] theorem State.setDt_dt (b : Byte) : (s.setDt b).dt = b := rfl
@[simp] theorem State.setDt_st (b : Byte) : (s.setDt b).st = s.st := rfl
@[simp] theorem State.setDt_mem (b : Byte) : (s.setDt b).mem = s.mem := rfl
@[simp] theorem State.setDt_keys (b : Byte) : (s.setDt b).keys = s.keys := rfl
@[simp] theorem State.setDt_disp (b : Byte) : (s.setDt b).disp = s.disp := rfl
@[simp] theorem State.setDt_mode (b : Byte) : (s.setDt b).mode = s.mode := rfl
@[simp] theorem State.setDt_kwreg (b : Byte) : (s.setDt b).kwreg = s.kwreg := rfl
@[simp] theorem State.setDt_fault (b : Byte) : (s.setDt b).fault = s.fault := rfl
@[simp] theorem State.setDt_draws (b : Byte) : (s.setDt b).draws = s.draws := rfl
@[simp] theorem State.getV_setDt (b : Byte) (z : Nibble) : (s.setDt b).getV z = s.getV z := rfl
@[simp] theorem State.getKey_setDt (b : Byte) (z : Nibble) : (s.setDt b).getKey z = s.getKey z := rfl

/-! `setSt` -/
@[simp] theorem State.setSt_v (b : Byte) : (s.setSt b).v = s.v := rfl
@[simp] theorem State.setSt_i (b : Byte) : (s.setSt b).i = s.i := rfl
@[simp] theorem State.setSt_pc (b : Byte) : (s.setSt b).pc = s.pc := rfl
@[simp] theorem State.setSt_sp (b : Byte) : (s.setSt b).sp = s.sp := rfl
@[simp] theorem State.setSt_stack (b : Byte) : (s.setSt b).stack = s.stack := rfl
@[simp] theorem State.setSt_dt (b : Byte) : (s.setSt b).dt = s.dt := rfl
@[simp] theorem State.setSt_st (b : Byte) : (s.setSt b).st = b := rfl
@[simp] theorem State.setSt_mem (b : Byte) : (s.setSt b).mem = s.mem := rfl
@[simp] theorem State.setSt_keys (b : Byte) : (s.setSt b).keys = s.keys := rfl
@[simp] theorem State.setSt_disp (b : Byte) : (s.setSt b).disp = s.disp := rfl
@[simp] theorem State.setSt_mode (b : Byte) : (s.setSt b).mode = s.mode := rfl
@[simp] theorem State.setSt_kwreg (b : Byte) : (s.setSt b).kwreg = s.kwreg := rfl
@[simp] theorem State.setSt_fault (b : Byte) : (s.setSt b).fault = s.fault := rfl
@[simp] theorem State.setSt_draws (b : Byte) : (s.setSt b).draws = s.draws := rfl
@[simp] theorem State.getV_setSt (b : Byte) (z : Nibble) : (s.setSt b).getV z = s.getV z := rfl
@[simp] theorem State.getKey_setSt (b : Byte) (z : Nibble) : (s.setSt b).getKey z = s.getKey z := rfl

/-! `setMem` -/
@[simp] theorem State.setMem_v (m : Memory) : (s.setMem m).v = s.v := rfl
@[simp] theorem State.setMem_i (m : Memory) : (s.setMem m).i = s.i := rfl
@[simp] theorem State.setMem_pc (m : Memory) : (s.setMem m).pc = s.pc := rfl
@[simp] theorem State.setMem_sp (m : Memory) : (s.setMem m).sp = s.sp := rfl
@[simp] theorem State.setMem_stack (m : Memory) : (s.setMem m).stack = s.stack := rfl
@[simp] theorem State.setMem_dt (m : Memory) : (s.setMem m).dt = s.dt := rfl
@[simp] theorem State.setMem_st (m : Memory) : (s.setMem m).st = s.st := rfl
@[simp] theorem State.setMem_mem (m : Memory) : (s.setMem m).mem = m := rfl
@[simp] theorem State.setMem_keys (m : Memory) : (s.setMem m).keys = s.keys := rfl
@[simp] theorem State.setMem_disp (m : Memory) : (s.setMem m).disp = s.disp := rfl
@[simp] theorem State.setMem_mode (m : Memory) : (s.setMem m).mode = s.mode := rfl
@[simp] theorem State.setMem_kwreg (m : Memory) : (s.setMem m).kwreg = s.kwreg := rfl
@[simp] theorem State.setMem_fault (m : Memory) : (s.setMem m).fault = s.fault := rfl
@[simp] theorem State.setMem_draws (m : Memory) : (s.setMem m).draws = s.draws := rfl
@[simp] theorem State.getV_setMem (m : Memory) (z : Nibble) : (s.setMem m).getV z = s.getV z := rfl
@[simp] theorem State.getKey_setMem (m : Memory) (z : Nibble) : (s.setMem m).getKey z = s.getKey z := rfl

/-! `setKey` -/
@[simp] theorem State.setKey_v (k : Nibble) (d : Bool) : (s.setKey k d).v = s.v := rfl
@[simp] theorem State.setKey_i (k : Nibble) (d : Bool) : (s.setKey k d).i = s.i := rfl
@[simp] theorem State.setKey_pc (k : Nibble) (d : Bool) : (s.setKey k d).pc = s.pc := rfl
@[simp] theorem State.setKey_sp (k : Nibble) (d : Bool) : (s.setKey k d).sp = s.sp := rfl
@[simp] theorem State.setKey_stack (k : Nibble) (d : Bool) : (s.setKey k d).stack = s.stack := rfl
@[simp] theorem State.setKey_dt (k : Nibble) (d : Bool) : (s.setKey k d).dt = s.dt := rfl
@[simp] theorem State.setKey_st (k : Nibble) (d : Bool) : (s.setKey k d).st = s.st := rfl
@[simp] theorem State.setKey_mem (k : Nibble) (d : Bool) : (s.setKey k d).mem = s.mem := rfl
@[simp] theorem State.setKey_keys (k : Nibble) (d : Bool) : (s.setKey k d).keys = s.keys.set k.toNat d k.isLt := rfl
@[simp] theorem State.setKey_disp (k : Nibble) (d : Bool) : (s.setKey k d).disp = s.disp := rfl
@[simp] theorem State.setKey_mode (k : Nibble) (d : Bool) : (s.setKey k d).mode = s.mode := rfl
@[simp] theorem State.setKey_kwreg (k : Nibble) (d : Bool) : (s.setKey k d).kwreg = s.kwreg := rfl
@[simp] theorem State.setKey_fault (k : Nibble) (d : Bool) : (s.setKey k d).fault = s.fault := rfl
@[simp] theorem State.setKey_draws (k : Nibble) (d : Bool) : (s.setKey k d).draws = s.draws := rfl
@[simp] theorem State.getV_setKey (k : Nibble) (d : Bool) (z : Nibble) : (s.setKey k d).getV z = s.getV z := rfl

/-! `setDisp` -/
@[simp] theorem State.setDisp_v (d : Display) : (s.setDisp d).v = s.v := rfl
@[simp] theorem State.setDisp_i (d : Display) : (s.setDisp d).i = s.i := rfl
@[simp] theorem State.setDisp_pc (d : Display) : (s.setDisp d).pc = s.pc := rfl
@[simp] theorem State.setDisp_sp (d : Display) : (s.setDisp d).sp = s.sp := rfl
@[simp] theorem State.setDisp_stack (d : Display) : (s.setDisp d).stack = s.stack := rfl
@[simp] theorem State.setDisp_dt (d : Display) : (s.setDisp d).dt = s.dt := rfl
@[simp] theorem State.setDisp_st (d : Display) : (s.setDisp d).st = s.st := rfl
@[simp] theorem State.setDisp_mem (d : Display) : (s.setDisp d).mem = s.mem := rfl
@[simp] theorem State.setDisp_keys (d : Display) : (s.setDisp d).keys = s.keys := rfl
@[simp] theorem State.setDisp_disp (d : Display) : (s.setDisp d).disp = d := rfl
@[simp] theorem State.setDisp_mode (d : Display) : (s.setDisp d).mode = s.mode := rfl
@[simp] theorem State.setDisp_kwreg (d : Display) : (s.setDisp d).kwreg = s.kwreg := rfl
@[simp] theorem State.setDisp_fault (d : Display) : (s.setDisp d).fault = s.fault := rfl
@[simp] theorem State.setDisp_draws (d : Display) : (s.setDisp d).draws = s.draws := rfl
@[simp] theorem State.getV_setDisp (d : Display) (z : Nibble) : (s.setDisp d).getV z = s.getV z := rfl
@[simp] theorem State.getKey_setDisp (d : Display) (z : Nibble) : (s.setDisp d).getKey z = s.getKey z := rfl

/-! `setMode` -/
@[simp] theorem State.setMode_v (m : Mode) : (s.setMode m).v = s.v := rfl
@[simp] theorem State.setMode_i (m : Mode) : (s.setMode m).i = s.i := rfl
@[simp] theorem State.setMode_pc (m : Mode) : (s.setMode m).pc = s.pc := rfl
@[simp] theorem State.setMode_sp (m : Mode) : (s.setMode m).sp = s.sp := rfl
@[simp] theorem State.setMode_stack (m : Mode) : (s.setMode m).stack = s.stack := rfl
@[simp] theorem State.setMode_dt (m : Mode) : (s.setMode m).dt = s.dt := rfl
@[simp] theorem State.setMode_st (m : Mode) : (s.setMode m).st = s.st := rfl
@[simp] theorem State.setMode_mem (m : Mode) : (s.setMode m).mem = s.mem := rfl
@[simp] theorem State.setMode_keys (m : Mode) : (s.setMode m).keys = s.keys := rfl
@[simp] theorem State.setMode_disp (m : Mode) : (s.setMode m).disp = s.disp := rfl
@[simp] theorem State.setMode_mode (m : Mode) : (s.setMode m).mode = m := rfl
@[simp] theorem State.setMode_kwreg (m : Mode) : (s.setMode m).kwreg = s.kwreg := rfl
@[simp] theorem State.setMode_fault (m : Mode) : (s.setMode m).fault = s.fault := rfl
@[simp] theorem State.setMode_draws (m : Mode) : (s.setMode m).draws = s.draws := rfl
@[simp] theorem State.getV_setMode (m : Mode) (z : Nibble) : (s.setMode m).getV z = s.getV z := rfl
@[simp] theorem State.getKey_setMode (m : Mode) (z : Nibble) : (s.setMode m).getKey z = s.getKey z := rfl

/-! `setKwreg` -/
@[simp] theorem State.setKwreg_v (x : Nibble) : (s.setKwreg x).v = s.v := rfl
@[simp] theorem State.setKwreg_i (x : Nibble) : (s.setKwreg x).i = s.i := rfl
@[simp] theorem State.setKwreg_pc (x : Nibble) : (s.setKwreg x).pc = s.pc := rfl
@[simp] theorem State.setKwreg_sp (x : Nibble) : (s.setKwreg x).sp = s.sp := rfl
@[simp] theorem State.setKwreg_stack (x : Nibble) : (s.setKwreg x).stack = s.stack := rfl
@[simp] theorem State.setKwreg_dt (x : Nibble) : (s.setKwreg x).dt = s.dt := rfl
@[simp] theorem State.setKwreg_st (x : Nibble) : (s.setKwreg x).st = s.st := rfl
@[simp] theorem State.setKwreg_mem (x : Nibble) : (s.setKwreg x).mem = s.mem := rfl
@[simp] theorem State.setKwreg_keys (x : Nibble) : (s.setKwreg x).keys = s.keys := rfl
@[simp] theorem State.setKwreg_disp (x : Nibble) : (s.setKwreg x).disp = s.disp := rfl
@[simp] theorem State.setKwreg_mode (x : Nibble) : (s.setKwreg x).mode = s.mode := rfl
@[simp] theorem State.setKwreg_kwreg (x : Nibble) : (s.setKwreg x).kwreg = x := rfl
@[simp] theorem State.setKwreg_fault (x : Nibble) : (s.setKwreg x).fault = s.fault := rfl
@[simp] theorem State.setKwreg_draws (x : Nibble) : (s.setKwreg x).draws = s.draws := rfl
@[simp] theorem State.getV_setKwreg (x : Nibble) (z : Nibble) : (s.setKwreg x).getV z = s.getV z := rfl
@[simp] theorem State.getKey_setKwreg (x : Nibble) (z : Nibble) : (s.setKwreg x).getKey z = s.getKey z := rfl

/-! `setFault` -/
@[simp] theorem State.setFault_v (f : FaultRecord) : (s.setFault f).v = s.v := rfl
@[simp] theorem State.setFault_i (f : FaultRecord) : (s.setFault f).i = s.i := rfl
@[simp] theorem State.setFault_pc (f : FaultRecord) : (s.setFault f).pc = s.pc := rfl
@[simp] theorem State.setFault_sp (f : FaultRecord) : (s.setFault f).sp = s.sp := rfl
@[simp] theorem State.setFault_stack (f : FaultRecord) : (s.setFault f).stack = s.stack := rfl
@[simp] theorem State.setFault_dt (f : FaultRecord) : (s.setFault f).dt = s.dt := rfl
@[simp] theorem State.setFault_st (f : FaultRecord) : (s.setFault f).st = s.st := rfl
@[simp] theorem State.setFault_mem (f : FaultRecord) : (s.setFault f).mem = s.mem := rfl
@[simp] theorem State.setFault_keys (f : FaultRecord) : (s.setFault f).keys = s.keys := rfl
@[simp] theorem State.setFault_disp (f : FaultRecord) : (s.setFault f).disp = s.disp := rfl
@[simp] theorem State.setFault_mode (f : FaultRecord) : (s.setFault f).mode = s.mode := rfl
@[simp] theorem State.setFault_kwreg (f : FaultRecord) : (s.setFault f).kwreg = s.kwreg := rfl
@[simp] theorem State.setFault_fault (f : FaultRecord) : (s.setFault f).fault = f := rfl
@[simp] theorem State.setFault_draws (f : FaultRecord) : (s.setFault f).draws = s.draws := rfl
@[simp] theorem State.getV_setFault (f : FaultRecord) (z : Nibble) : (s.setFault f).getV z = s.getV z := rfl
@[simp] theorem State.getKey_setFault (f : FaultRecord) (z : Nibble) : (s.setFault f).getKey z = s.getKey z := rfl

/-! `countDraw` -/
@[simp] theorem State.countDraw_v : (s.countDraw).v = s.v := rfl
@[simp] theorem State.countDraw_i : (s.countDraw).i = s.i := rfl
@[simp] theorem State.countDraw_pc : (s.countDraw).pc = s.pc := rfl
@[simp] theorem State.countDraw_sp : (s.countDraw).sp = s.sp := rfl
@[simp] theorem State.countDraw_stack : (s.countDraw).stack = s.stack := rfl
@[simp] theorem State.countDraw_dt : (s.countDraw).dt = s.dt := rfl
@[simp] theorem State.countDraw_st : (s.countDraw).st = s.st := rfl
@[simp] theorem State.countDraw_mem : (s.countDraw).mem = s.mem := rfl
@[simp] theorem State.countDraw_keys : (s.countDraw).keys = s.keys := rfl
@[simp] theorem State.countDraw_disp : (s.countDraw).disp = s.disp := rfl
@[simp] theorem State.countDraw_mode : (s.countDraw).mode = s.mode := rfl
@[simp] theorem State.countDraw_kwreg : (s.countDraw).kwreg = s.kwreg := rfl
@[simp] theorem State.countDraw_fault : (s.countDraw).fault = s.fault := rfl
@[simp] theorem State.countDraw_draws : (s.countDraw).draws = s.draws + 1 := rfl
@[simp] theorem State.getV_countDraw (z : Nibble) : (s.countDraw).getV z = s.getV z := rfl
@[simp] theorem State.getKey_countDraw (z : Nibble) : (s.countDraw).getKey z = s.getKey z := rfl

/-! `advance` -/
@[simp] theorem State.advance_v : (s.advance).v = s.v := rfl
@[simp] theorem State.advance_i : (s.advance).i = s.i := rfl
@[simp] theorem State.advance_pc : (s.advance).pc = s.pc + 2 := rfl
@[simp] theorem State.advance_sp : (s.advance).sp = s.sp := rfl
@[simp] theorem State.advance_stack : (s.advance).stack = s.stack := rfl
@[simp] theorem State.advance_dt : (s.advance).dt = s.dt := rfl
@[simp] theorem State.advance_st : (s.advance).st = s.st := rfl
@[simp] theorem State.advance_mem : (s.advance).mem = s.mem := rfl
@[simp] theorem State.advance_keys : (s.advance).keys = s.keys := rfl
@[simp] theorem State.advance_disp : (s.advance).disp = s.disp := rfl
@[simp] theorem State.advance_mode : (s.advance).mode = s.mode := rfl
@[simp] theorem State.advance_kwreg : (s.advance).kwreg = s.kwreg := rfl
@[simp] theorem State.advance_fault : (s.advance).fault = s.fault := rfl
@[simp] theorem State.advance_draws : (s.advance).draws = s.draws := rfl
@[simp] theorem State.getV_advance (z : Nibble) : (s.advance).getV z = s.getV z := rfl
@[simp] theorem State.getKey_advance (z : Nibble) : (s.advance).getKey z = s.getKey z := rfl

/-! `setFlag` -/
@[simp] theorem State.setFlag_v (b : Bool) : (s.setFlag b).v = (s.setV vf (flagByte b)).v := rfl
@[simp] theorem State.setFlag_i (b : Bool) : (s.setFlag b).i = s.i := rfl
@[simp] theorem State.setFlag_pc (b : Bool) : (s.setFlag b).pc = s.pc := rfl
@[simp] theorem State.setFlag_sp (b : Bool) : (s.setFlag b).sp = s.sp := rfl
@[simp] theorem State.setFlag_stack (b : Bool) : (s.setFlag b).stack = s.stack := rfl
@[simp] theorem State.setFlag_dt (b : Bool) : (s.setFlag b).dt = s.dt := rfl
@[simp] theorem State.setFlag_st (b : Bool) : (s.setFlag b).st = s.st := rfl
@[simp] theorem State.setFlag_mem (b : Bool) : (s.setFlag b).mem = s.mem := rfl
@[simp] theorem State.setFlag_keys (b : Bool) : (s.setFlag b).keys = s.keys := rfl
@[simp] theorem State.setFlag_disp (b : Bool) : (s.setFlag b).disp = s.disp := rfl
@[simp] theorem State.setFlag_mode (b : Bool) : (s.setFlag b).mode = s.mode := rfl
@[simp] theorem State.setFlag_kwreg (b : Bool) : (s.setFlag b).kwreg = s.kwreg := rfl
@[simp] theorem State.setFlag_fault (b : Bool) : (s.setFlag b).fault = s.fault := rfl
@[simp] theorem State.setFlag_draws (b : Bool) : (s.setFlag b).draws = s.draws := rfl
@[simp] theorem State.getKey_setFlag (b : Bool) (z : Nibble) : (s.setFlag b).getKey z = s.getKey z := rfl

/-! `push` -/
@[simp] theorem State.push_v (a : Word) : (s.push a).v = s.v := rfl
@[simp] theorem State.push_i (a : Word) : (s.push a).i = s.i := rfl
@[simp] theorem State.push_pc (a : Word) : (s.push a).pc = s.pc := rfl
@[simp] theorem State.push_sp (a : Word) : (s.push a).sp = s.sp + 1 := rfl
@[simp] theorem State.push_stack (a : Word) : (s.push a).stack = s.stack.setIfInBounds (s.sp + 1).toNat a := rfl
@[simp] theorem State.push_dt (a : Word) : (s.push a).dt = s.dt := rfl
@[simp] theorem State.push_st (a : Word) : (s.push a).st = s.st := rfl
@[simp] theorem State.push_mem (a : Word) : (s.push a).mem = s.mem := rfl
@[simp] theorem State.push_keys (a : Word) : (s.push a).keys = s.keys := rfl
@[simp] theorem State.push_disp (a : Word) : (s.push a).disp = s.disp := rfl
@[simp] theorem State.push_mode (a : Word) : (s.push a).mode = s.mode := rfl
@[simp] theorem State.push_kwreg (a : Word) : (s.push a).kwreg = s.kwreg := rfl
@[simp] theorem State.push_fault (a : Word) : (s.push a).fault = s.fault := rfl
@[simp] theorem State.push_draws (a : Word) : (s.push a).draws = s.draws := rfl
@[simp] theorem State.getV_push (a : Word) (z : Nibble) : (s.push a).getV z = s.getV z := rfl
@[simp] theorem State.getKey_push (a : Word) (z : Nibble) : (s.push a).getKey z = s.getKey z := rfl

/-! `storeAtI` -/
@[simp] theorem State.storeAtI_v (bs : List Byte) : (s.storeAtI bs).v = s.v := rfl
@[simp] theorem State.storeAtI_i (bs : List Byte) : (s.storeAtI bs).i = s.i := rfl
@[simp] theorem State.storeAtI_pc (bs : List Byte) : (s.storeAtI bs).pc = s.pc := rfl
@[simp] theorem State.storeAtI_sp (bs : List Byte) : (s.storeAtI bs).sp = s.sp := rfl
@[simp] theorem State.storeAtI_stack (bs : List Byte) : (s.storeAtI bs).stack = s.stack := rfl
@[simp] theorem State.storeAtI_dt (bs : List Byte) : (s.storeAtI bs).dt = s.dt := rfl
@[simp] theorem State.storeAtI_st (bs : List Byte) : (s.storeAtI bs).st = s.st := rfl
@[simp] theorem State.storeAtI_mem (bs : List Byte) : (s.storeAtI bs).mem = Memory.writeBytes s.mem (s.ea 0) bs := rfl
@[simp] theorem State.storeAtI_keys (bs : List Byte) : (s.storeAtI bs).keys = s.keys := rfl
@[simp] theorem State.storeAtI_disp (bs : List Byte) : (s.storeAtI bs).disp = s.disp := rfl
@[simp] theorem State.storeAtI_mode (bs : List Byte) : (s.storeAtI bs).mode = s.mode := rfl
@[simp] theorem State.storeAtI_kwreg (bs : List Byte) : (s.storeAtI bs).kwreg = s.kwreg := rfl
@[simp] theorem State.storeAtI_fault (bs : List Byte) : (s.storeAtI bs).fault = s.fault := rfl
@[simp] theorem State.storeAtI_draws (bs : List Byte) : (s.storeAtI bs).draws = s.draws := rfl
@[simp] theorem State.getV_storeAtI (bs : List Byte) (z : Nibble) : (s.storeAtI bs).getV z = s.getV z := rfl
@[simp] theorem State.getKey_storeAtI (bs : List Byte) (z : Nibble) : (s.storeAtI bs).getKey z = s.getKey z := rfl

end Updates

/-! The accessors over the updates they read, and the updates that are not one record update. -/

@[simp] theorem State.getV_setV (s : State) (x z : Nibble) (b : Byte) :
    (s.setV x b).getV z = if z = x then b else s.getV z := by
  simp only [State.getV, State.setV, Vector.getElem_set, BitVec.toNat_inj, eq_comm]

@[simp] theorem State.getV_setFlag (s : State) (z : Nibble) (b : Bool) :
    (s.setFlag b).getV z = if z = vf then flagByte b else s.getV z :=
  State.getV_setV s vf z (flagByte b)

@[simp] theorem State.getKey_setKey (s : State) (k z : Nibble) (d : Bool) :
    (s.setKey k d).getKey z = if z = k then d else s.getKey z := by
  simp only [State.getKey, State.setKey, Vector.getElem_set, BitVec.toNat_inj, eq_comm]

/-- Two states with the same V registers by number have the same register file. -/
theorem State.v_ext {s t : State} (h : ∀ x, t.getV x = s.getV x) : t.v = s.v := by
  apply Vector.ext
  intro k hk
  have := h (BitVec.ofNat 4 k)
  have e : (BitVec.ofNat 4 k).toNat = k := by simpa using Nat.mod_eq_of_lt hk
  simpa only [State.getV, e] using this

theorem State.skipIf_true (s : State) : s.skipIf true = s.advance := rfl
theorem State.skipIf_false (s : State) : s.skipIf false = s := rfl

/-- What a skip does: it moves PC by 2 or not at all, and nothing else. -/
theorem State.skipIf_eq (s : State) (c : Bool) : s.skipIf c = s.setPc (if c then s.pc + 2 else s.pc) := by
  cases c <;> rfl

end Sys2Proof.Machine
end

