-- ==== Sys2Proof/Laws/Ops.lean ====
section
/-! SUPPORT. What each shared operation can do, said once: raising a fault, loading registers, the key scan, one pixel,
the operand lists. -/

namespace Sys2Proof.Machine

open Sys2Proof

/-- What raising a fault answers: a next state that differs in MODE and FAULT alone (R197). -/
theorem raise_eq_next {c : FaultCause} {w : Word} {s t : State} (h : raise c w s = .next t) :
    t = (s.setMode .faulted).setFault ⟨c, s.pc, w⟩ := by
  cases h
  rfl

/-- Raising always answers a next state. -/
theorem raise_next (c : FaultCause) (w : Word) (s : State) :
    raise c w s = .next ((s.setMode .faulted).setFault ⟨c, s.pc, w⟩) := rfl

theorem State.inMem_iff (s : State) (k : Nat) : s.inMem k = true ↔ s.i.toNat + k < 4096 :=
  decide_eq_true_iff

theorem State.firstV_length (s : State) (x : Nibble) : (s.firstV x).length = x.toNat + 1 := by simp [State.firstV]

theorem State.bytesAtI_length (s : State) (k : Nat) : (s.bytesAtI k).length = k := by simp [State.bytesAtI]

theorem State.firstV_getElem (s : State) (x : Nibble) (k : Nat) (h : k < (s.firstV x).length) :
    (s.firstV x)[k] = s.getV (BitVec.ofNat 4 k) := by simp [State.firstV]

theorem State.bytesAtI_getElem (s : State) (j k : Nat) (h : k < (s.bytesAtI j).length) :
    (s.bytesAtI j)[k] = Memory.read s.mem (s.i.toNat + k) := by simp [State.bytesAtI, State.ea]

/-- `loadV` writes V registers and nothing else. -/
theorem State.loadV_eq (s : State) (bs : List Byte) : ∃ v, s.loadV bs = { s with v := v } := by
  unfold State.loadV
  generalize bs.zipIdx = ps
  induction ps generalizing s with
  | nil => exact ⟨s.v, rfl⟩
  | cons p ps ih =>
    obtain ⟨v, hv⟩ := ih (s.setV (BitVec.ofNat 4 p.2) p.1)
    exact ⟨v, by rw [List.foldl_cons, hv]; rfl⟩

/-- Register k receives byte k of at most sixteen bytes; the registers past the last byte keep their values (R166). -/
theorem State.getV_loadV (s : State) (bs : List Byte) (h : bs.length ≤ 16) (x : Nibble) :
    (s.loadV bs).getV x = if hx : x.toNat < bs.length then bs[x.toNat] else s.getV x := by
  have key : ∀ (bs : List Byte) (k : Nat) (s : State), k + bs.length ≤ 16 →
      ((bs.zipIdx k).foldl (fun t p => t.setV (BitVec.ofNat 4 p.2) p.1) s).getV x =
        if hx : k ≤ x.toNat ∧ x.toNat - k < bs.length then bs[x.toNat - k] else s.getV x := by
    intro bs
    induction bs with
    | nil => intro k s _; simp
    | cons b bs ih =>
      intro k s hk
      rw [List.length_cons] at hk
      rw [List.zipIdx_cons, List.foldl_cons, ih (k + 1) _ (by omega), State.getV_setV]
      have hkn : (BitVec.ofNat 4 k).toNat = k := by simpa using Nat.mod_eq_of_lt (show k < 16 by omega)
      by_cases hx : x = BitVec.ofNat 4 k
      · have hxk : x.toNat = k := by rw [hx, hkn]
        rw [dif_neg (by omega), if_pos hx, dif_pos (by rw [List.length_cons]; omega)]
        simp [hxk]
      · have hne : x.toNat ≠ k := fun h => hx (BitVec.eq_of_toNat_eq (by rw [h, hkn]))
        rw [if_neg hx]
        by_cases hin : k + 1 ≤ x.toNat ∧ x.toNat - (k + 1) < bs.length
        · rw [dif_pos hin, dif_pos (by rw [List.length_cons]; omega)]
          rw [List.getElem_cons]
          have : x.toNat - k ≠ 0 := by omega
          simp [this, Nat.sub_sub]
        · rw [dif_neg hin, dif_neg (by rw [List.length_cons]; omega)]
  have := key bs 0 s (by omega)
  simpa [State.loadV] using this

/-- A key scan finds the lowest-numbered pressed key, or finds none because none is pressed (R112). -/
theorem State.firstKey_eq_some {s : State} {k : Nat} (h : s.firstKey = some k) :
    k < 16 ∧ s.getKey (BitVec.ofNat 4 k) = true ∧ ∀ j < k, s.getKey (BitVec.ofNat 4 j) = false := by
  unfold State.firstKey at h
  rw [List.find?_range_eq_some] at h
  exact ⟨by simpa using h.2.1, h.1, fun j hj => by simpa using h.2.2 j hj⟩

theorem State.firstKey_eq_none {s : State} (h : s.firstKey = none) (k : Nibble) : s.getKey k = false := by
  unfold State.firstKey at h
  rw [List.find?_eq_none] at h
  have := h k.toNat (by simpa using k.isLt)
  simpa using this

/-- Memory after `initialize` is in canonical form, whatever the font (R216). -/
theorem Memory.initial_wf (font : Font) : Memory.wf (Memory.initial font) :=
  Memory.writeBytes_wf Memory.nil_wf (by simp [Config.fontLen, Config.memSize])

/-- One pixel written: that pixel, and every other as before (R174). -/
theorem Display.pixel_setPixel (d : Display) (x y : Nat) (b : Bool) (p q : Nat) :
    Display.pixel (Display.setPixel d x y b) p q =
      if p % 64 = x % 64 ∧ q % 32 = y % 32 then b else Display.pixel d p q := by
  unfold Display.pixel Display.setPixel
  rw [Vector.getElem_set]
  by_cases hy : q % 32 = y % 32
  · have hy' : y % Config.dispH = q % Config.dispH := hy.symm
    rw [if_pos hy', Vector.getElem_set]
    by_cases hx : p % 64 = x % 64
    · have hx' : x % Config.dispW = p % Config.dispW := hx.symm
      rw [if_pos hx', if_pos ⟨hx, hy⟩]
    · have hx' : ¬x % Config.dispW = p % Config.dispW := fun h => hx h.symm
      rw [if_neg hx', if_neg fun h => hx h.1]
      simp only [hy']
  · have hy' : ¬y % Config.dispH = q % Config.dispH := fun h => hy h.symm
    rw [if_neg hy', if_neg fun h => hy h.2]

theorem Display.pixel_clear (x y : Nat) : Display.pixel Display.clear x y = false := by
  simp [Display.pixel, Display.clear]

end Sys2Proof.Machine
end

