-- ==== Sys2Proof/Laws/Display.lean ====
section
/-! SUPPORT. What the sprite rasteriser does to a display and to the collision flag (R172 to R174): one row, then a
list of rows. Coordinates are compared modulo 64 and 32, so a lemma holds for pixels named either way. -/

namespace Sys2Proof.Machine

open Sys2Proof

theorem Display.pixel_congr (d : Display) {p q x y : Nat} (hp : p % 64 = x % 64) (hq : q % 32 = y % 32) :
    Display.pixel d p q = Display.pixel d x y := by
  unfold Display.pixel
  simp only [Config.dispW, Config.dispH, hp, hq]

/-- The first `k` columns of a sprite row: each is XORed once, nothing else changes, and the flag gathers the
collisions with the display as it was. -/
theorem drawColumns_spec (x y : Nat) (b : Byte) (d : Display) (c : Bool) (k : Nat) (hk : k ≤ 8) :
    ∃ r, r = (List.range k).foldl (fun q col => xorPixel (x + col) y (spriteBit b col) q) (d, c) ∧
    (∀ col < k, ∀ p q, p % 64 = (x + col) % 64 → q % 32 = y % 32 →
      Display.pixel r.1 p q = (Display.pixel d p q ^^ spriteBit b col)) ∧
    (∀ p q, (∀ col < k, ¬(p % 64 = (x + col) % 64 ∧ q % 32 = y % 32)) →
      Display.pixel r.1 p q = Display.pixel d p q) ∧
    (r.2 = true ↔ c = true ∨ ∃ col < k, Display.pixel d (x + col) y = true ∧ spriteBit b col = true) := by
  induction k with
  | zero => exact ⟨_, rfl, by simp, by simp, by simp⟩
  | succ k ih =>
    obtain ⟨⟨e, f⟩, hr, h1, h2, h3⟩ := ih (by omega)
    rw [List.range_succ, List.foldl_append, ← hr]
    refine ⟨_, rfl, ?_⟩
    have old : Display.pixel e (x + k) y = Display.pixel d (x + k) y := h2 _ _ fun col hc h => by omega
    simp only [List.foldl_cons, List.foldl_nil, xorPixel, old]
    refine ⟨fun col hc p q hx hy => ?_, fun p q hn => ?_, ?_⟩
    · rw [Display.pixel_setPixel]
      by_cases hck : col = k
      · subst hck
        rw [if_pos ⟨hx, hy⟩, Display.pixel_congr d hx hy]
      · rw [if_neg fun h => by omega]
        exact h1 col (by omega) p q hx hy
    · rw [Display.pixel_setPixel, if_neg (hn k (by omega))]
      exact h2 p q fun col hc => hn col (by omega)
    · have hcol : collides (Display.pixel d (x + k) y) (Display.pixel d (x + k) y ^^ spriteBit b k) = true ↔
          Display.pixel d (x + k) y = true ∧ spriteBit b k = true := by
        cases Display.pixel d (x + k) y <;> cases spriteBit b k <;> decide
      rw [Bool.or_eq_true, h3, hcol]
      constructor
      · rintro ((h | ⟨col, hc, h⟩) | h)
        · exact .inl h
        · exact .inr ⟨col, by omega, h⟩
        · exact .inr ⟨k, by omega, h⟩
      · rintro (h | ⟨col, hc, h⟩)
        · exact .inl (.inl h)
        · by_cases hck : col = k
          · exact .inr (hck ▸ h)
          · exact .inl (.inr ⟨col, by omega, h⟩)

/-- At most 32 sprite rows, so that no two share a display row: each of the 8 x n bits is XORed once, nothing else
changes, and the flag says whether a set pixel met a set bit. -/
theorem drawRows_spec (x : Nat) (bs : List Byte) : ∀ (y : Nat) (d : Display) (c : Bool), bs.length ≤ 32 →
    (∀ row (h : row < bs.length), ∀ col < 8, ∀ p q, p % 64 = (x + col) % 64 → q % 32 = (y + row) % 32 →
      Display.pixel (drawRows x y bs (d, c)).1 p q = (Display.pixel d p q ^^ spriteBit bs[row] col)) ∧
    (∀ p q, (∀ row < bs.length, ∀ col < 8, ¬(p % 64 = (x + col) % 64 ∧ q % 32 = (y + row) % 32)) →
      Display.pixel (drawRows x y bs (d, c)).1 p q = Display.pixel d p q) ∧
    ((drawRows x y bs (d, c)).2 = true ↔ c = true ∨
      ∃ row, ∃ h : row < bs.length, ∃ col < 8,
        Display.pixel d (x + col) (y + row) = true ∧ spriteBit bs[row] col = true) := by
  induction bs with
  | nil => intro y d c _; simp [drawRows]
  | cons b bs ih =>
    intro y d c hl
    rw [List.length_cons] at hl
    obtain ⟨⟨e, f⟩, hr, a1, a2, a3⟩ := drawColumns_spec x y b d c 8 (by omega)
    obtain ⟨b1, b2, b3⟩ := ih (y + 1) e f (by omega)
    rw [drawRows, drawRow, ← hr]
    have old : ∀ p q row, row < bs.length → q % 32 = (y + (row + 1)) % 32 →
        Display.pixel e p q = Display.pixel d p q := fun p q row h hq => a2 p q fun col _ hh => by omega
    refine ⟨?_, fun p q hn => ?_, ?_⟩
    · rintro (_ | row) h col hc p q hp hq
      · rw [b2 p q fun row hrow col _ hh => by omega]
        exact a1 col hc p q hp (by simpa using hq)
      · rw [List.length_cons] at h
        rw [b1 row (by omega) col hc p q hp (by omega), old p q row (by omega) hq]
        rfl
    · rw [b2 p q fun row hrow col hc hh => hn (row + 1) (by simpa using hrow) col hc ⟨hh.1, by omega⟩]
      exact a2 p q fun col hc hh => hn 0 (by simp) col hc ⟨hh.1, by simpa using hh.2⟩
    · have shift : ∀ col row, row < bs.length →
          Display.pixel e (x + col) (y + 1 + row) = Display.pixel d (x + col) (y + (row + 1)) := fun col row h => by
        rw [old _ _ row h (by omega)]
        exact Display.pixel_congr d rfl (by omega)
      rw [b3]
      simp only [] at a3
      rw [a3]
      constructor
      · rintro ((h | ⟨col, hc, h⟩) | ⟨row, h, col, hc, h1, h2⟩)
        · exact .inl h
        · exact .inr ⟨0, by simp, col, hc, by simpa using h⟩
        · exact .inr ⟨row + 1, by simpa using h, col, hc, by rw [← shift col row h]; exact h1, h2⟩
      · rintro (h | ⟨_ | row, h, col, hc, h1, h2⟩)
        · exact .inl (.inl h)
        · exact .inl (.inr ⟨col, hc, by simpa using h1, h2⟩)
        · have h' : row < bs.length := by simpa using h
          exact .inr ⟨row, h', col, hc, by rw [shift col row h']; exact h1, h2⟩

end Sys2Proof.Machine
end

