-- ==== Sys2Proof/Laws/Encoding.lean ====
section
/-! SUPPORT. The fields of the words the formats build (R62, R63), and when a word misses or hits a row of the opcode
table (R65), read off its fields. -/

namespace Sys2Proof

theorem extract_hi {m n : Nat} (a : BitVec m) (b : BitVec n) : (a ++ b).extractLsb' n m = a := by
  ext i hi
  simp [BitVec.getLsbD_append, hi]

theorem extract_lo {m n : Nat} (a : BitVec m) (b : BitVec n) (k len : Nat) (h : k + len ≤ n) :
    (a ++ b).extractLsb' k len = b.extractLsb' k len := by
  ext i hi
  have : k + i < n := by omega
  simp [BitVec.getLsbD_append, this]

theorem extract_all {n : Nat} (b : BitVec n) : b.extractLsb' 0 n = b := by
  ext i hi
  simp

section Fields

variable (op x y n : Nibble) (kk : Byte) (nnn : Addr)

@[simp] theorem fieldOp_wordA : fieldOp (wordA op nnn) = op := extract_hi op nnn
@[simp] theorem fieldNNN_wordA : fieldNNN (wordA op nnn) = nnn :=
  (extract_lo op nnn 0 12 (by decide)).trans (extract_all nnn)

theorem wordXK_eq : wordXK op x kk = wordA op (x ++ kk) := rfl
theorem wordXYN_eq : wordXYN op x y n = wordXK op x (y ++ n) := rfl

@[simp] theorem fieldOp_wordXK : fieldOp (wordXK op x kk) = op := extract_hi op (x ++ kk)
@[simp] theorem fieldX_wordXK : fieldX (wordXK op x kk) = x :=
  (extract_lo op (x ++ kk) 8 4 (by decide)).trans (extract_hi x kk)
@[simp] theorem fieldKK_wordXK : fieldKK (wordXK op x kk) = kk :=
  (extract_lo op (x ++ kk) 0 8 (by decide)).trans ((extract_lo x kk 0 8 (by decide)).trans (extract_all kk))

@[simp] theorem fieldY_wordXK : fieldY (wordXK op x kk) = kk.extractLsb' 4 4 :=
  (extract_lo op (x ++ kk) 4 4 (by decide)).trans (extract_lo x kk 4 4 (by decide))
@[simp] theorem fieldN_wordXK : fieldN (wordXK op x kk) = kk.extractLsb' 0 4 :=
  (extract_lo op (x ++ kk) 0 4 (by decide)).trans (extract_lo x kk 0 4 (by decide))

@[simp] theorem fieldX_wordA : fieldX (wordA op nnn) = nnn.extractLsb' 8 4 := extract_lo op nnn 8 4 (by decide)
@[simp] theorem fieldY_wordA : fieldY (wordA op nnn) = nnn.extractLsb' 4 4 := extract_lo op nnn 4 4 (by decide)
@[simp] theorem fieldN_wordA : fieldN (wordA op nnn) = nnn.extractLsb' 0 4 := extract_lo op nnn 0 4 (by decide)

@[simp] theorem fieldOp_wordXYN : fieldOp (wordXYN op x y n) = op := fieldOp_wordXK op x (y ++ n)
@[simp] theorem fieldX_wordXYN : fieldX (wordXYN op x y n) = x := fieldX_wordXK op x (y ++ n)
@[simp] theorem fieldY_wordXYN : fieldY (wordXYN op x y n) = y :=
  (extract_lo op (x ++ (y ++ n)) 4 4 (by decide)).trans
    ((extract_lo x (y ++ n) 4 4 (by decide)).trans (extract_hi y n))
@[simp] theorem fieldN_wordXYN : fieldN (wordXYN op x y n) = n :=
  (extract_lo op (x ++ (y ++ n)) 0 4 (by decide)).trans
    ((extract_lo x (y ++ n) 0 4 (by decide)).trans ((extract_lo y n 0 4 (by decide)).trans (extract_all n)))

end Fields

/-- A bit vector is its high part and its low part. -/
theorem extract_append_extract {m n : Nat} (w : BitVec (m + n)) : w.extractLsb' n m ++ w.extractLsb' 0 n = w := by
  ext i hi
  rw [BitVec.getElem_append]
  split
  · simp [BitVec.getLsbD_eq_getElem hi]
  · have : n + (i - n) = i := by omega
    simp [this, BitVec.getLsbD_eq_getElem hi]

theorem extract_extract {n : Nat} (w : BitVec n) (k l j m : Nat) (h : j + m ≤ l) :
    (w.extractLsb' k l).extractLsb' j m = w.extractLsb' (k + j) m := by
  ext i hi
  have : j + i < l := by omega
  simp [this, Nat.add_assoc]

/-- A word is its op and its low twelve bits. -/
theorem word_eq_wordA (w : Word) : wordA (fieldOp w) (fieldNNN w) = w :=
  extract_append_extract (m := 4) (n := 12) w

/-- A word is its four nibbles. -/
theorem word_eq_wordXYN (w : Word) : wordXYN (fieldOp w) (fieldX w) (fieldY w) (fieldN w) = w := by
  have h1 : fieldX w ++ fieldKK w = fieldNNN w := by
    have := extract_append_extract (m := 4) (n := 8) (fieldNNN w)
    rwa [fieldNNN, extract_extract w 0 12 8 4 (by decide), extract_extract w 0 12 0 8 (by decide)] at this
  have h2 : fieldY w ++ fieldN w = fieldKK w := by
    have := extract_append_extract (m := 4) (n := 4) (fieldKK w)
    rwa [fieldKK, extract_extract w 0 8 4 4 (by decide), extract_extract w 0 8 0 4 (by decide)] at this
  rw [wordXYN_eq, h2, wordXK_eq, h1, word_eq_wordA]

/-- Two words are equal when their four nibbles are. -/
theorem word_ext {w v : Word} (ho : fieldOp w = fieldOp v) (hx : fieldX w = fieldX v) (hy : fieldY w = fieldY v)
    (hn : fieldN w = fieldN v) : w = v := by
  rw [← word_eq_wordXYN w, ← word_eq_wordXYN v, ho, hx, hy, hn]

/-! ### Rows of the opcode table -/

/-- A word matches a row when it does so nibble by nibble. -/
theorem row_iff (w m v : Word) :
    (w &&& m == v) = ((fieldOp w &&& fieldOp m == fieldOp v) && (fieldX w &&& fieldX m == fieldX v) &&
      (fieldY w &&& fieldY m == fieldY v) && (fieldN w &&& fieldN m == fieldN v)) := by
  have hand : ∀ k : Nat, (w &&& m).extractLsb' k 4 = w.extractLsb' k 4 &&& m.extractLsb' k 4 := fun k =>
    BitVec.extractLsb'_and
  rw [Bool.eq_iff_iff]
  simp only [Bool.and_eq_true, beq_iff_eq]
  constructor
  · rintro rfl
    exact ⟨⟨⟨(hand 12).symm, (hand 8).symm⟩, (hand 4).symm⟩, (hand 0).symm⟩
  · rintro ⟨⟨⟨ho, hx⟩, hy⟩, hn⟩
    exact word_ext ((hand 12).trans ho) ((hand 8).trans hx) ((hand 4).trans hy) ((hand 0).trans hn)

/-- The opcode table with every mask and value written as nibbles. -/
theorem opcodeRows_nibbles : opcodeRows = [
  ⟨1, wordXYN 0xF 0x0 0xF 0xF, wordXYN 0x0 0x0 0xE 0x0⟩,
  ⟨2, wordXYN 0xF 0x0 0xF 0xF, wordXYN 0x0 0x0 0xE 0xE⟩,
  ⟨3, wordXYN 0xF 0x0 0x0 0x0, wordXYN 0x1 0x0 0x0 0x0⟩,
  ⟨4, wordXYN 0xF 0x0 0x0 0x0, wordXYN 0xB 0x0 0x0 0x0⟩,
  ⟨5, wordXYN 0xF 0x0 0x0 0x0, wordXYN 0x2 0x0 0x0 0x0⟩,
  ⟨6, wordXYN 0xF 0x0 0x0 0x0, wordXYN 0x3 0x0 0x0 0x0⟩,
  ⟨7, wordXYN 0xF 0x0 0x0 0x0, wordXYN 0x5 0x0 0x0 0x0⟩,
  ⟨8, wordXYN 0xF 0x0 0x0 0x0, wordXYN 0x4 0x0 0x0 0x0⟩,
  ⟨9, wordXYN 0xF 0x0 0x0 0x0, wordXYN 0x9 0x0 0x0 0x0⟩,
  ⟨10, wordXYN 0xF 0x0 0x0 0x0, wordXYN 0x6 0x0 0x0 0x0⟩,
  ⟨11, wordXYN 0xF 0x0 0x0 0xF, wordXYN 0x8 0x0 0x0 0x0⟩,
  ⟨12, wordXYN 0xF 0x0 0x0 0x0, wordXYN 0xA 0x0 0x0 0x0⟩,
  ⟨13, wordXYN 0xF 0x0 0xF 0xF, wordXYN 0xF 0x0 0x0 0x7⟩,
  ⟨14, wordXYN 0xF 0x0 0xF 0xF, wordXYN 0xF 0x0 0x0 0xA⟩,
  ⟨15, wordXYN 0xF 0x0 0xF 0xF, wordXYN 0xF 0x0 0x1 0x5⟩,
  ⟨16, wordXYN 0xF 0x0 0xF 0xF, wordXYN 0xF 0x0 0x1 0x8⟩,
  ⟨17, wordXYN 0xF 0x0 0xF 0xF, wordXYN 0xF 0x0 0x2 0x9⟩,
  ⟨18, wordXYN 0xF 0x0 0xF 0xF, wordXYN 0xF 0x0 0x3 0x3⟩,
  ⟨19, wordXYN 0xF 0x0 0xF 0xF, wordXYN 0xF 0x0 0x5 0x5⟩,
  ⟨20, wordXYN 0xF 0x0 0xF 0xF, wordXYN 0xF 0x0 0x6 0x5⟩,
  ⟨21, wordXYN 0xF 0x0 0x0 0x0, wordXYN 0x7 0x0 0x0 0x0⟩,
  ⟨22, wordXYN 0xF 0x0 0x0 0xF, wordXYN 0x8 0x0 0x0 0x4⟩,
  ⟨23, wordXYN 0xF 0x0 0xF 0xF, wordXYN 0xF 0x0 0x1 0xE⟩,
  ⟨24, wordXYN 0xF 0x0 0x0 0xF, wordXYN 0x8 0x0 0x0 0x1⟩,
  ⟨25, wordXYN 0xF 0x0 0x0 0xF, wordXYN 0x8 0x0 0x0 0x2⟩,
  ⟨26, wordXYN 0xF 0x0 0x0 0xF, wordXYN 0x8 0x0 0x0 0x3⟩,
  ⟨27, wordXYN 0xF 0x0 0x0 0xF, wordXYN 0x8 0x0 0x0 0x5⟩,
  ⟨28, wordXYN 0xF 0x0 0x0 0xF, wordXYN 0x8 0x0 0x0 0x6⟩,
  ⟨29, wordXYN 0xF 0x0 0x0 0xF, wordXYN 0x8 0x0 0x0 0x7⟩,
  ⟨30, wordXYN 0xF 0x0 0x0 0xF, wordXYN 0x8 0x0 0x0 0xE⟩,
  ⟨31, wordXYN 0xF 0x0 0x0 0x0, wordXYN 0xC 0x0 0x0 0x0⟩,
  ⟨32, wordXYN 0xF 0x0 0x0 0x0, wordXYN 0xD 0x0 0x0 0x0⟩,
  ⟨33, wordXYN 0xF 0x0 0xF 0xF, wordXYN 0xE 0x0 0x9 0xE⟩,
  ⟨34, wordXYN 0xF 0x0 0xF 0xF, wordXYN 0xE 0x0 0xA 0x1⟩,
  ⟨35, wordXYN 0xF 0x0 0x0 0x0, wordXYN 0x0 0x0 0x0 0x0⟩,
  ⟨36, wordXYN 0x0 0x0 0x0 0x0, wordXYN 0x0 0x0 0x0 0x0⟩] := by decide

/-- A mask that does not test the field x gives the same whatever x is. -/
theorem mask_ignores_x {m : Word} (hm : fieldX m = 0) (op x y n : Nibble) :
    wordXYN op x y n &&& m = wordXYN op 0 y n &&& m := by
  have hand : ∀ (w : Word) (k : Nat), (w &&& m).extractLsb' k 4 = w.extractLsb' k 4 &&& m.extractLsb' k 4 :=
    fun w k => BitVec.extractLsb'_and
  have hop : ∀ w : Word, fieldOp (w &&& m) = fieldOp w &&& fieldOp m := fun w => hand w 12
  have hx : ∀ w : Word, fieldX (w &&& m) = fieldX w &&& fieldX m := fun w => hand w 8
  have hy : ∀ w : Word, fieldY (w &&& m) = fieldY w &&& fieldY m := fun w => hand w 4
  have hn : ∀ w : Word, fieldN (w &&& m) = fieldN w &&& fieldN m := fun w => hand w 0
  apply word_ext <;> simp [hop, hx, hy, hn, hm]

/-- No row of the opcode table tests the field x. -/
theorem firstRow_ignores_x (op x y n : Nibble) : firstRow (wordXYN op x y n) = firstRow (wordXYN op 0 y n) := by
  have hrows : ∀ r ∈ opcodeRows, fieldX r.mask = 0 := by decide
  unfold firstRow
  congr 1
  exact List.find?_congr fun r hr => by rw [mask_ignores_x (hrows r hr)]

/-- Nor does the check of R69. -/
theorem unmappedWf_ignores_x (op x y n : Nibble) :
    Instr.unmappedWf (wordXYN op x y n) = Instr.unmappedWf (wordXYN op 0 y n) := by
  unfold Instr.unmappedWf
  rw [mask_ignores_x (m := 0xF000#16) (by decide), mask_ignores_x (m := 0x000F#16) (by decide),
    mask_ignores_x (m := 0x00FF#16) (by decide)]

end Sys2Proof
end

