-- ==== Sys2Proof/Laws/PerInstr.lean ====
section
/-! SUPPORT. A statement about every instruction as syntax, one lemma per constructor: the word of a well-formed
instruction falls to the instruction's own row of the opcode table when the rows are tried in order (R65, R66). -/

namespace Sys2Proof.Laws.EncodeFindsRow

open Sys2Proof

/-- The word of `i`, matched against the rows in the table's order, first matches the row of `i`. -/
def Statement (i : Instr) : Prop := i.wf = true → firstRow (encode i) = some i.row

theorem cls (x : Nibble) : Statement (.cls x) := fun _ => by simp [firstRow, opcodeRows_nibbles, encode, row_iff, Instr.row]
theorem ret (x : Nibble) : Statement (.ret x) := fun _ => by simp [firstRow, opcodeRows_nibbles, encode, row_iff, Instr.row]
theorem jp (nnn : Addr) : Statement (.jp nnn) := fun _ => by simp [firstRow, opcodeRows_nibbles, encode, row_iff, Instr.row]
theorem jpV0 (nnn : Addr) : Statement (.jpV0 nnn) := fun _ => by simp [firstRow, opcodeRows_nibbles, encode, row_iff, Instr.row]
theorem call (nnn : Addr) : Statement (.call nnn) := fun _ => by simp [firstRow, opcodeRows_nibbles, encode, row_iff, Instr.row]
theorem seImm (x : Nibble) (kk : Byte) : Statement (.seImm x kk) := fun _ => by simp [firstRow, opcodeRows_nibbles, encode, row_iff, Instr.row]
theorem seReg (x y n : Nibble) : Statement (.seReg x y n) := fun _ => by simp [firstRow, opcodeRows_nibbles, encode, row_iff, Instr.row]
theorem sneImm (x : Nibble) (kk : Byte) : Statement (.sneImm x kk) := fun _ => by simp [firstRow, opcodeRows_nibbles, encode, row_iff, Instr.row]
theorem sneReg (x y n : Nibble) : Statement (.sneReg x y n) := fun _ => by simp [firstRow, opcodeRows_nibbles, encode, row_iff, Instr.row]
theorem ldImm (x : Nibble) (kk : Byte) : Statement (.ldImm x kk) := fun _ => by simp [firstRow, opcodeRows_nibbles, encode, row_iff, Instr.row]
theorem ldReg (x y : Nibble) : Statement (.ldReg x y) := fun _ => by simp [firstRow, opcodeRows_nibbles, encode, row_iff, Instr.row]
theorem ldI (nnn : Addr) : Statement (.ldI nnn) := fun _ => by simp [firstRow, opcodeRows_nibbles, encode, row_iff, Instr.row]
theorem ldVxDt (x : Nibble) : Statement (.ldVxDt x) := fun _ => by simp [firstRow, opcodeRows_nibbles, encode, row_iff, Instr.row]
theorem ldVxK (x : Nibble) : Statement (.ldVxK x) := fun _ => by simp [firstRow, opcodeRows_nibbles, encode, row_iff, Instr.row]
theorem ldDtVx (x : Nibble) : Statement (.ldDtVx x) := fun _ => by simp [firstRow, opcodeRows_nibbles, encode, row_iff, Instr.row]
theorem ldStVx (x : Nibble) : Statement (.ldStVx x) := fun _ => by simp [firstRow, opcodeRows_nibbles, encode, row_iff, Instr.row]
theorem ldF (x : Nibble) : Statement (.ldF x) := fun _ => by simp [firstRow, opcodeRows_nibbles, encode, row_iff, Instr.row]
theorem ldB (x : Nibble) : Statement (.ldB x) := fun _ => by simp [firstRow, opcodeRows_nibbles, encode, row_iff, Instr.row]
theorem storeRegs (x : Nibble) : Statement (.storeRegs x) := fun _ => by simp [firstRow, opcodeRows_nibbles, encode, row_iff, Instr.row]
theorem loadRegs (x : Nibble) : Statement (.loadRegs x) := fun _ => by simp [firstRow, opcodeRows_nibbles, encode, row_iff, Instr.row]
theorem addImm (x : Nibble) (kk : Byte) : Statement (.addImm x kk) := fun _ => by simp [firstRow, opcodeRows_nibbles, encode, row_iff, Instr.row]
theorem addReg (x y : Nibble) : Statement (.addReg x y) := fun _ => by simp [firstRow, opcodeRows_nibbles, encode, row_iff, Instr.row]
theorem addI (x : Nibble) : Statement (.addI x) := fun _ => by simp [firstRow, opcodeRows_nibbles, encode, row_iff, Instr.row]
theorem orReg (x y : Nibble) : Statement (.orReg x y) := fun _ => by simp [firstRow, opcodeRows_nibbles, encode, row_iff, Instr.row]
theorem andReg (x y : Nibble) : Statement (.andReg x y) := fun _ => by simp [firstRow, opcodeRows_nibbles, encode, row_iff, Instr.row]
theorem xorReg (x y : Nibble) : Statement (.xorReg x y) := fun _ => by simp [firstRow, opcodeRows_nibbles, encode, row_iff, Instr.row]
theorem subReg (x y : Nibble) : Statement (.subReg x y) := fun _ => by simp [firstRow, opcodeRows_nibbles, encode, row_iff, Instr.row]
theorem shrReg (x y : Nibble) : Statement (.shrReg x y) := fun _ => by simp [firstRow, opcodeRows_nibbles, encode, row_iff, Instr.row]
theorem subnReg (x y : Nibble) : Statement (.subnReg x y) := fun _ => by simp [firstRow, opcodeRows_nibbles, encode, row_iff, Instr.row]
theorem shlReg (x y : Nibble) : Statement (.shlReg x y) := fun _ => by simp [firstRow, opcodeRows_nibbles, encode, row_iff, Instr.row]
theorem rnd (x : Nibble) (kk : Byte) : Statement (.rnd x kk) := fun _ => by simp [firstRow, opcodeRows_nibbles, encode, row_iff, Instr.row]
theorem drw (x y n : Nibble) : Statement (.drw x y n) := fun _ => by simp [firstRow, opcodeRows_nibbles, encode, row_iff, Instr.row]
theorem skp (x : Nibble) : Statement (.skp x) := fun _ => by simp [firstRow, opcodeRows_nibbles, encode, row_iff, Instr.row]
theorem sknp (x : Nibble) : Statement (.sknp x) := fun _ => by simp [firstRow, opcodeRows_nibbles, encode, row_iff, Instr.row]

theorem sys_nibbles : ∀ y n : Nibble, (y = 0xE → n ≠ 0x0 ∧ n ≠ 0xE) → firstRow (wordXYN 0 0 y n) = some 35 := by
  decide +kernel

theorem sys (nnn : Addr) : Statement (.sys nnn) := by
  intro h
  have hw := word_eq_wordXYN (wordA 0 nnn)
  rw [fieldOp_wordA, fieldX_wordA, fieldY_wordA, fieldN_wordA] at hw
  show firstRow (wordA 0 nnn) = some 35
  rw [← hw, firstRow_ignores_x]
  apply sys_nibbles
  intro hy
  have key : ∀ k : Nibble, nnn.extractLsb' 0 4 = k → nnn &&& 0x0FF#12 = 0#4 ++ (0xE#4 ++ k) := by
    rintro k rfl
    have ha := extract_append_extract (m := 4) (n := 8) nnn
    have hb := extract_append_extract (m := 4) (n := 4) (nnn.extractLsb' 0 8)
    rw [extract_extract nnn 0 8 4 4 (by decide), extract_extract nnn 0 8 0 4 (by decide), hy] at hb
    have hc : nnn.extractLsb' 8 4 ++ (0xE#4 ++ nnn.extractLsb' 0 4) = nnn :=
      (congrArg (nnn.extractLsb' 8 4 ++ ·) hb).trans ha
    calc nnn &&& 0x0FF#12
        = (nnn.extractLsb' 8 4 ++ (0xE#4 ++ nnn.extractLsb' 0 4)) &&& (0#4 ++ 0xFF#8) := by rw [hc]; rfl
      _ = 0#4 ++ (0xE#4 ++ nnn.extractLsb' 0 4) := by
        rw [BitVec.and_append]
        congr 1
        · simp
        · exact BitVec.and_allOnes
  constructor
  · intro hn
    have := key 0 hn
    simp [Instr.wf, Instr.sysWf, this] at h
  · intro hn
    have := key 0xE hn
    simp [Instr.wf, Instr.sysWf, this] at h

theorem unmapped_nibbles : ∀ op y n : Nibble, Instr.unmappedWf (wordXYN op 0 y n) = true →
    firstRow (wordXYN op 0 y n) = some 36 := by
  decide +kernel

theorem unmapped (w : Word) : Statement (.unmapped w) := by
  intro h
  show firstRow w = some 36
  have hw : Instr.unmappedWf w = true := h
  rw [← word_eq_wordXYN w, unmappedWf_ignores_x] at hw
  rw [← word_eq_wordXYN w, firstRow_ignores_x]
  exact unmapped_nibbles _ _ _ hw

end Sys2Proof.Laws.EncodeFindsRow
end

