-- ==== Sys2Proof/Laws/Step.lean ====
section
/-! SUPPORT. What a step can do, said once (R111): the three modes, and in Running the two cases of R113. -/

namespace Sys2Proof.Machine

open Sys2Proof

theorem State.canFetch_iff (s : State) : s.canFetch = true ↔ s.pc.toNat ≤ 0xFFE := decide_eq_true_iff

theorem cycle_faulted {run : Instr → State → Result} {s : State} (h : s.mode = .faulted) : cycle run s = .next s := by
  simp [cycle, h]

theorem cycle_awaitingKey {run : Instr → State → Result} {s : State} (h : s.mode = .awaitingKey) :
    cycle run s = .next s.keyScan := by
  simp [cycle, h]

theorem cycle_running {run : Instr → State → Result} {s : State} (h : s.mode = .running) (hpc : s.pc.toNat ≤ 0xFFE) :
    cycle run s = run s.fetched s := by
  simp [cycle, h, (s.canFetch_iff).2 hpc]

theorem cycle_fetchBounds {run : Instr → State → Result} {s : State} (h : s.mode = .running)
    (hpc : 0xFFE < s.pc.toNat) : cycle run s = raise .fetchBounds 0 s := by
  have hc : ¬s.canFetch = true := fun hc => by have := (s.canFetch_iff).1 hc; omega
  simp [cycle, h, hc]

/-- Every next state of a step comes from one of the four cases. -/
theorem cycle_cases {run : Instr → State → Result} {s t : State} (h : cycle run s = .next t) :
    (s.mode = .faulted ∧ t = s) ∨ (s.mode = .awaitingKey ∧ t = s.keyScan) ∨
    (s.mode = .running ∧ s.pc.toNat ≤ 0xFFE ∧ run s.fetched s = .next t) ∨
    (s.mode = .running ∧ 0xFFE < s.pc.toNat ∧ t = (s.setMode .faulted).setFault ⟨.fetchBounds, s.pc, 0⟩) := by
  rcases hm : s.mode with _ | _ | _
  · rcases Nat.lt_or_ge 0xFFE s.pc.toNat with hpc | hpc
    · rw [cycle_fetchBounds hm hpc] at h
      exact .inr (.inr (.inr ⟨rfl, hpc, raise_eq_next h⟩))
    · rw [cycle_running hm hpc] at h
      exact .inr (.inr (.inl ⟨rfl, hpc, h⟩))
  · rw [cycle_awaitingKey hm] at h
    exact .inr (.inl ⟨rfl, by cases h; rfl⟩)
  · rw [cycle_faulted hm] at h
    exact .inl ⟨rfl, by cases h; rfl⟩

/-- What a key scan leaves (R112): nothing changed, or one register and the mode. -/
theorem State.keyScan_cases (s : State) :
    (s.keyScan = s ∧ ∀ k, s.getKey k = false) ∨
    ∃ k : Nat, k < 16 ∧ s.getKey (BitVec.ofNat 4 k) = true ∧ (∀ j < k, s.getKey (BitVec.ofNat 4 j) = false) ∧
      s.keyScan = (s.setV s.kwreg (BitVec.ofNat 8 k)).setMode .running := by
  unfold State.keyScan
  cases hk : s.firstKey with
  | none => exact .inl ⟨rfl, State.firstKey_eq_none hk⟩
  | some k =>
    obtain ⟨h1, h2, h3⟩ := State.firstKey_eq_some hk
    exact .inr ⟨k, h1, h2, h3, rfl⟩

end Sys2Proof.Machine
end

