-- ==== Sys2Proof/Machine/Ports.lean ====
section
/-! DEFINITION. The signal-level interface that spec/60_exceptions.md R211 suggests (decision D24; log entry 26): what an
assertion of each input does, in terms of the operations of R206, and the outputs as functions of the state. -/

namespace Sys2Proof.Machine

open Sys2Proof

/-- The value inputs of R211: `key[15:0]`, `ld_addr[11:0]`, `ld_data[7:0]`, `rnd[7:0]`, `disp_rd_x[5:0]`,
`disp_rd_y[4:0]`. -/
structure PortIn where
  key : Word
  ldAddr : Addr
  ldData : Byte
  rnd : Byte
  dispRdX : BitVec 6
  dispRdY : BitVec 5
  deriving DecidableEq, Repr

/-- The inputs that act on each assertion (R211). -/
inductive Strobe where
  /-- Performs `initialize`. -/
  | rst
  /-- Performs one `step`, with `rnd` as the draw. -/
  | stepEn
  /-- Performs one `tick`. -/
  | tick
  /-- Loads one byte: `ld_data` to MEM[`ld_addr`]. -/
  | ldWe
  deriving DecidableEq, Repr

/-- KEY set to the levels of `key[15:0]`, which replace the two key events (R211). -/
def State.setKeyLevels (s : State) (key : Word) : State :=
  { s with keys := Vector.ofFn fun k => key.getLsbD k.val }

/-- What a strobe performs, on a state whose keys already follow the port. -/
def strobeOperation (font : Font) (p : PortIn) (e : Strobe) (s : State) : Result :=
  match e with
  | .rst => .next (State.initialized font s.draws)
  | .stepEn => stepDraw p.rnd s
  | .tick => .next s.tick
  | .ldWe => .next (s.setMem (Memory.write s.mem p.ldAddr.toNat p.ldData))

/-- One assertion of one strobe: KEY takes the levels of `key[15:0]`, then the operation runs, so a step sees the keys
as they are at its assertion; after `rst` every key reads released (R216) until the next assertion. DESIGN CHOICE:
levels are taken at assertions only, and the order of assertions that fall together is the caller's (R52, R53; log
entry 26). -/
def strobe (font : Font) (p : PortIn) (e : Strobe) (s : State) : Result :=
  strobeOperation font p e (s.setKeyLevels p.key)

/-- The outputs of R211 after a strobe. -/
structure PortOut where
  dispPixel : Bool
  soundOn : Bool
  diagValid : Bool
  diagCode : BitVec 2
  faultCode : BitVec 3
  mode : BitVec 2
  deriving DecidableEq, Repr

/-- The outputs: `s` is the state, `d` what the last step reported. The spec gives `mode[1:0]` no coding, so the coding
is an argument. DESIGN CHOICE: with no diagnostic `diag_code` reads 0 (and `diag_valid` is false), and with no fault
`fault_code` reads 0 (log entry 26). -/
def portOut (modeCode : Mode → BitVec 2) (p : PortIn) (d : Option Diagnostic) (s : State) : PortOut where
  dispPixel := Display.pixel s.disp p.dispRdX.toNat p.dispRdY.toNat
  soundOn := s.soundOn
  diagValid := d.isSome
  diagCode := match d with
    | some d => BitVec.ofNat 2 (diagnosticCode d.kind)
    | none => 0
  faultCode := faultCode s.fault.cause
  mode := modeCode s.mode

/-- The encoder's port (R211): `imm[11:0]` carries nnn, kk or n in its low bits. `none` where `form[5:0]` is no form
number. -/
def encoderPort (form : BitVec 6) (x y : Nibble) (imm : Addr) : Option Word :=
  encodeForm form.toNat x y (imm.extractLsb' 0 8) imm (imm.extractLsb' 0 4)

end Sys2Proof.Machine
end

