-- ==== Sys2Proof/Laws/Ports.lean ====
section
/-! SUPPORT. The key levels of the ports (R211): what the levels leave, and that a strobed step sees them. -/

namespace Sys2Proof.Machine

open Sys2Proof

/-- Key k is pressed exactly when bit k of the levels is set. -/
@[simp] theorem State.getKey_setKeyLevels (s : State) (key : Word) (k : Nibble) :
    (s.setKeyLevels key).getKey k = key.getLsbD k.toNat :=
  Vector.getElem_ofFn _

@[simp] theorem State.getV_setKeyLevels (s : State) (key : Word) (x : Nibble) :
    (s.setKeyLevels key).getV x = s.getV x := rfl

/-- Nothing but KEY follows the levels. -/
theorem State.setKeyLevels_eq (s : State) (key : Word) : ∃ ks, s.setKeyLevels key = { s with keys := ks } := ⟨_, rfl⟩

/-- A strobed step is the step from the state whose keys are the levels. -/
theorem strobe_stepEn (font : Font) (p : PortIn) (s : State) :
    strobe font p .stepEn s = stepDraw p.rnd (s.setKeyLevels p.key) := rfl

/-- `rst` answers the reset whatever the levels are. -/
theorem strobe_rst (font : Font) (p : PortIn) (s : State) :
    strobe font p .rst s = .next (State.initialized font s.draws) := rfl

end Sys2Proof.Machine
end

