-- ==== Sys2Proof/Tests/Slice0.lean ====
section
/-! SUPPORT. The model's own tests. Expected results are the spec's: spec/30_encoding.md R65 for the words written out
bit by bit, spec/95_test_vectors.md (V-...) for the steps and the encoder lines. Then, for every statement with
hypotheses, a witness that they can be met together (test_witness_<its name>). -/

namespace Sys2Proof.Tests

open Sys2Proof Sys2Proof.Machine Sys2Proof.TextEncoder

/-! ### Helpers -/

/-- "Fresh" of 95_test_vectors.md. -/
abbrev fresh : State := State.reset

/-- Bytes in memory from an address on. -/
def put (a : Nat) (bs : List Byte) (s : State) : State := s.setMem (Memory.writeBytes s.mem a bs)

/-- A word at PC, high byte first. -/
def word (w : Word) (s : State) : State := put s.pc.toNat [w.extractLsb' 8 8, w.extractLsb' 0 8] s

/-- What a result's next state shows. -/
def seen {α : Type} (f : State → α) : Result → Option α
  | .next t => some (f t)
  | .fault _ => none
  | .refused _ => none

/-- One step of `w` from `s`, and what the state after it shows. -/
def after {α : Type} (w : Word) (s : State) (f : State → α) : Option α := seen f (step (word w s))

/-- The pixels of a list of (column, row). -/
def pixels (t : State) (ps : List (Nat × Nat)) : List Bool := ps.map fun p => Display.pixel t.disp p.1 p.2

/-- A pixel set. -/
def lit (x y : Nat) (s : State) : State := s.setDisp (Display.setPixel s.disp x y true)

/-- MODE and FAULT. -/
def faultSeen (t : State) : Mode × FaultCause × Word × Word := (t.mode, t.fault.cause, t.fault.addr, t.fault.word)

/-! ### Ill-formed terms are refused (R68, R69) -/

theorem test_wf_sys_is_not_cls : (Instr.sys 0x5E0).wf = false := by decide
theorem test_wf_sys_is_not_ret : (Instr.sys 0x0EE).wf = false := by decide
theorem test_wf_unmapped_is_not_alu : (Instr.unmapped 0x812E).wf = false := by decide
theorem test_wf_unmapped_is_not_key : (Instr.unmapped 0xE59E).wf = false := by decide
theorem test_wf_unmapped_is_not_misc : (Instr.unmapped 0xF165).wf = false := by decide
theorem test_wf_unmapped_is_not_jp : (Instr.unmapped 0x1200).wf = false := by decide
theorem test_wf_accepts : (Instr.sys 0x123).wf = true ∧ (Instr.unmapped 0x8128).wf = true ∧
    (Instr.unmapped 0xE500).wf = true ∧ (Instr.unmapped 0xF1FF).wf = true := by decide
theorem test_emitted_refuses : (Instr.cls 1).emitted = false ∧ (Instr.ret 0xA).emitted = false ∧
    (Instr.seReg 3 4 0xB).emitted = false ∧ (Instr.sneReg 3 4 7).emitted = false ∧ (Instr.sys 0x123).emitted = false ∧
    (Instr.unmapped 0x8128).emitted = false := by decide

/-! ### Words written out bit by bit (R65) -/

theorem test_decode_op_0 :
    decode 0b0000000011100000 = .cls 0 ∧ decode 0b0000010111100000 = .cls 5 ∧
    decode 0b0000000011101110 = .ret 0 ∧ decode 0b0000101011101110 = .ret 0xA ∧
    decode 0b0000000100100011 = .sys 0x123 ∧ decode 0b0000000000000000 = .sys 0 := by decide
theorem test_decode_addresses :
    decode 0b0001001000000000 = .jp 0x200 ∧ decode 0b1011001011110000 = .jpV0 0x2F0 ∧
    decode 0b0010001000001010 = .call 0x20A ∧ decode 0b1010001100000000 = .ldI 0x300 := by decide
theorem test_decode_skips :
    decode 0b0011001101111111 = .seImm 3 0x7F ∧ decode 0b0101001101000000 = .seReg 3 4 0 ∧
    decode 0b0101001101001011 = .seReg 3 4 0xB ∧ decode 0b0100110000000000 = .sneImm 0xC 0 ∧
    decode 0b1001000111110000 = .sneReg 1 0xF 0 ∧ decode 0b1110010110011110 = .skp 5 ∧
    decode 0b1110010110100001 = .sknp 5 := by decide
theorem test_decode_immediates :
    decode 0b0110000100100000 = .ldImm 1 0x20 ∧ decode 0b0111000100000101 = .addImm 1 5 ∧
    decode 0b1100000100001111 = .rnd 1 0x0F := by decide
theorem test_decode_alu :
    decode 0b1000000100100000 = .ldReg 1 2 ∧ decode 0b1000000100100001 = .orReg 1 2 ∧
    decode 0b1000000100100010 = .andReg 1 2 ∧ decode 0b1000000100100011 = .xorReg 1 2 ∧
    decode 0b1000101010110100 = .addReg 0xA 0xB ∧ decode 0b1000000100100101 = .subReg 1 2 ∧
    decode 0b1000000100100110 = .shrReg 1 2 ∧ decode 0b1000000100100111 = .subnReg 1 2 ∧
    decode 0b1000000100101110 = .shlReg 1 2 := by decide
theorem test_decode_draw : decode 0b1101000000010101 = .drw 0 1 5 := by decide
theorem test_decode_misc :
    decode 0b1111010000000111 = .ldVxDt 4 ∧ decode 0b1111001100001010 = .ldVxK 3 ∧
    decode 0b1111001100010101 = .ldDtVx 3 ∧ decode 0b1111000000011000 = .ldStVx 0 ∧
    decode 0b1111001000011110 = .addI 2 ∧ decode 0b1111001100101001 = .ldF 3 ∧
    decode 0b1111001000110011 = .ldB 2 ∧ decode 0b1111000101010101 = .storeRegs 1 ∧
    decode 0b1111001001100101 = .loadRegs 2 := by decide
theorem test_decode_unmapped :
    decode 0b1000000100101000 = .unmapped 0x8128 ∧ decode 0b1110010100000000 = .unmapped 0xE500 ∧
    decode 0b1111000111111111 = .unmapped 0xF1FF := by decide
/-- The decoder of the host's question: the row's bits, and a row given fewer bits than a word. -/
theorem test_decode_table_word :
    decodeTableWord 16 0x8AB4 = some (.addReg 0xA 0xB) ∧ decodeTableWord 8 0xE0 = some (.cls 0) := by decide

/-! ### One step of each instruction (95_test_vectors.md section 2) -/

/-- V-STEP-1, V-STEP-2. -/
theorem test_sys : after 0x0000 fresh (·.pc) = some 0x202 ∧
    stepReport (word 0x0123 fresh) = some ⟨.unsupportedSys, 0x200, 0x0123⟩ := by decide
/-- V-STEP-3. -/
theorem test_unmapped : after 0x8128 (fresh.setV 1 5) (fun t => (t.pc, t.getV 1, t.getV 15)) = some (0x202, 5, 0) ∧
    stepReport (word 0x8128 fresh) = some ⟨.unmappedOpcode, 0x200, 0x8128⟩ := by decide
/-- V-STEP-6: a step at 0xFFE runs, and the next one faults. -/
theorem test_fetch_bounds : after 0x6005 (fresh.setPc 0xFFE) (fun t => (t.getV 0, t.pc)) = some (5, 0x1000) ∧
    seen faultSeen (step (fresh.setPc 0x1000)) = some (.faulted, .fetchBounds, 0x1000, 0) := by decide
/-- V-STEP-8: no alignment. -/
theorem test_odd_pc : after 0x6142 (fresh.setPc 0x201) (fun t => (t.getV 1, t.pc)) = some (0x42, 0x203) := by
  decide
/-- V-STEP-9. -/
theorem test_faulted_step : seen (·.pc) (step ((fresh.setMode .faulted).setFault ⟨.memBounds, 0x200, 0⟩)) = some 0x200 ∧
    (((fresh.setMode .faulted).setDt 3).tick).dt = 2 := by decide
/-- V-STEP-10. -/
theorem test_cls : after 0x05E0 (lit 0 0 fresh) (fun t => pixels t [(0, 0), (63, 31)]) = some [false, false] := by
  decide
/-- V-FLOW-7, V-STEP-11. -/
theorem test_ret :
    after 0x00EE ((fresh.setSp 2).setStack 2 0x300) (fun t => (t.pc, t.sp, t.stack[2])) = some (0x300, 1, 0x300) ∧
    after 0x0AEE ((fresh.setSp 1).setStack 1 0x400) (fun t => (t.pc, t.sp)) = some (0x400, 0) := by decide
/-- V-FLOW-6. -/
theorem test_ret_underflow :
    after 0x00EE fresh (fun t => (faultSeen t, t.pc)) = some ((.faulted, .stackUnderflow, 0x200, 0x00EE), 0x200) := by
  decide
/-- V-FLOW-1. -/
theorem test_jp : after 0x1ABC fresh (·.pc) = some 0xABC := by decide
/-- V-FLOW-8, V-FLOW-9. -/
theorem test_jpV0 : after 0xB300 (fresh.setV 0 0x10) (·.pc) = some 0x310 ∧
    after 0xBFFF (fresh.setV 0 2) (·.pc) = some 0x001 := by decide
/-- V-FLOW-4. -/
theorem test_call : after 0x2300 (fresh.setSp 14) (fun t => (t.pc, t.sp, t.stack[15])) = some (0x300, 15, 0x202) := by
  decide
/-- V-FLOW-5. -/
theorem test_call_overflow : after 0x2300 (fresh.setSp 15) (fun t => (faultSeen t, t.pc, t.sp)) =
    some ((.faulted, .stackOverflow, 0x200, 0x2300), 0x200, 15) := by decide
/-- V-FLOW-10, V-FLOW-11. -/
theorem test_seImm : after 0x337F (fresh.setV 3 0x7F) (·.pc) = some 0x204 ∧
    after 0x3380 (fresh.setV 3 0x7F) (·.pc) = some 0x202 := by decide
/-- V-FLOW-12, V-FLOW-13. -/
theorem test_sneImm : after 0x437F (fresh.setV 3 0x7F) (·.pc) = some 0x202 ∧
    after 0x4380 (fresh.setV 3 0x7F) (·.pc) = some 0x204 := by decide
/-- V-FLOW-15, V-FLOW-16. -/
theorem test_seReg : after 0x5340 ((fresh.setV 3 4).setV 4 5) (·.pc) = some 0x202 ∧
    after 0x534B ((fresh.setV 3 4).setV 4 4) (·.pc) = some 0x204 := by decide
/-- V-FLOW-17, V-FLOW-19. -/
theorem test_sneReg : after 0x9340 ((fresh.setV 3 4).setV 4 4) (·.pc) = some 0x202 ∧
    after 0x9347 ((fresh.setV 3 4).setV 4 5) (·.pc) = some 0x204 := by decide
/-- V-ALU-1, V-ALU-2. -/
theorem test_ldImm : after 0x6120 fresh (·.getV 1) = some 0x20 ∧ after 0x6FAB fresh (·.getV 15) = some 0xAB := by
  decide
/-- V-ALU-3, V-ALU-4. -/
theorem test_addImm : after 0x7105 (fresh.setV 1 0xFE) (fun t => (t.getV 1, t.getV 15)) = some (3, 0) ∧
    after 0x7F01 (fresh.setV 15 0xFF) (·.getV 15) = some 0 := by decide
/-- V-ALU-5. -/
theorem test_ldReg : after 0x8AB0 ((fresh.setV 0xA 7).setV 0xB 9) (fun t => (t.getV 0xA, t.getV 0xB)) = some (7, 7) := by
  decide
/-- V-ALU-6. -/
theorem test_orReg : after 0x8121 (((fresh.setV 1 0xF0).setV 2 0x0F).setV 15 1) (fun t => (t.getV 1, t.getV 15)) =
    some (0xFF, 1) := by decide
/-- V-ALU-7. -/
theorem test_andReg : after 0x8122 ((fresh.setV 1 0xF3).setV 2 0x3C) (·.getV 1) = some 0x30 := by decide
/-- V-ALU-8, V-ALU-9. -/
theorem test_xorReg : after 0x8123 ((fresh.setV 1 0xFF).setV 2 0x0F) (·.getV 1) = some 0xF0 ∧
    after 0x8113 (fresh.setV 1 0x5A) (·.getV 1) = some 0 := by decide
/-- V-ALU-11, V-ALU-13. -/
theorem test_addReg : after 0x8124 ((fresh.setV 1 0xFF).setV 2 1) (fun t => (t.getV 1, t.getV 15)) = some (0, 1) ∧
    after 0x81F4 ((fresh.setV 1 0xFF).setV 15 1) (fun t => (t.getV 1, t.getV 15)) = some (0, 1) := by decide
/-- V-ALU-14, V-ALU-15. -/
theorem test_addReg_x_is_F : after 0x8F14 ((fresh.setV 15 0xF0).setV 1 0x20) (·.getV 15) = some 0x10 ∧
    after 0x8FF4 (fresh.setV 15 0x90) (·.getV 15) = some 0x20 := by decide
/-- V-ALU-16, V-ALU-17, V-ALU-20. -/
theorem test_subReg : after 0x8125 ((fresh.setV 1 5).setV 2 3) (fun t => (t.getV 1, t.getV 15)) = some (2, 0) ∧
    after 0x8125 ((fresh.setV 1 3).setV 2 5) (fun t => (t.getV 1, t.getV 15)) = some (0xFE, 1) ∧
    after 0x81F5 ((fresh.setV 1 5).setV 15 7) (fun t => (t.getV 1, t.getV 15)) = some (0xFE, 1) := by decide
/-- V-ALU-21, V-ALU-22, V-ALU-23. -/
theorem test_subReg_x_is_F : after 0x8F15 ((fresh.setV 15 5).setV 1 3) (·.getV 15) = some 0 ∧
    after 0x8F15 ((fresh.setV 15 3).setV 1 5) (·.getV 15) = some 1 ∧
    after 0x8FF5 (fresh.setV 15 9) (·.getV 15) = some 0 := by decide
/-- V-ALU-24, V-ALU-25. -/
theorem test_shrReg :
    after 0x8126 ((fresh.setV 1 0xAA).setV 2 5) (fun t => (t.getV 1, t.getV 2, t.getV 15)) = some (2, 2, 1) ∧
    after 0x8336 (fresh.setV 3 0x81) (fun t => (t.getV 3, t.getV 15)) = some (0x40, 1) := by decide
/-- V-ALU-26, V-ALU-27, V-ALU-28. -/
theorem test_shrReg_with_F : after 0x81F6 ((fresh.setV 1 0x55).setV 15 3) (fun t => (t.getV 1, t.getV 15)) = some (0, 0) ∧
    after 0x8F26 (fresh.setV 2 7) (fun t => (t.getV 2, t.getV 15)) = some (3, 3) ∧
    after 0x8FF6 (fresh.setV 15 3) (·.getV 15) = some 0 := by decide
/-- V-ALU-29, V-ALU-30, V-ALU-31. -/
theorem test_subnReg : after 0x8127 ((fresh.setV 1 1).setV 2 0x10) (fun t => (t.getV 1, t.getV 15)) = some (0xF, 1) ∧
    after 0x8127 ((fresh.setV 1 5).setV 2 3) (fun t => (t.getV 1, t.getV 15)) = some (0xFE, 0) ∧
    after 0x8127 ((fresh.setV 1 4).setV 2 4) (fun t => (t.getV 1, t.getV 15)) = some (0, 0) := by decide
/-- V-ALU-32 to V-ALU-36. -/
theorem test_subnReg_with_F : after 0x8F27 ((fresh.setV 15 5).setV 2 9) (·.getV 15) = some 8 ∧
    after 0x8F27 ((fresh.setV 15 9).setV 2 5) (·.getV 15) = some 5 ∧
    after 0x81F7 ((fresh.setV 1 3).setV 15 9) (fun t => (t.getV 1, t.getV 15)) = some (0xFE, 1) ∧
    after 0x81F7 ((fresh.setV 1 9).setV 15 3) (fun t => (t.getV 1, t.getV 15)) = some (0xF7, 0) ∧
    after 0x8FF7 (fresh.setV 15 7) (·.getV 15) = some 0 := by decide
/-- V-ALU-37, V-ALU-38, V-ALU-39. -/
theorem test_shlReg :
    after 0x812E ((fresh.setV 1 0xC1).setV 2 0x33) (fun t => (t.getV 1, t.getV 2, t.getV 15)) = some (0x82, 0x33, 1) ∧
    after 0x812E (fresh.setV 1 0x7F) (fun t => (t.getV 1, t.getV 15)) = some (0xFE, 0) := by decide
/-- V-ALU-40, V-ALU-41. -/
theorem test_shlReg_x_is_F : after 0x8F0E (fresh.setV 15 0x81) (·.getV 15) = some 2 ∧
    after 0x8F0E (fresh.setV 15 0x7F) (·.getV 15) = some 0 := by decide
/-- V-ALU-42, V-ALU-43: the draw is given. -/
theorem test_rnd : seen (·.getV 1) (stepDraw 0xA7 (word 0xC10F fresh)) = some 7 ∧
    seen (·.getV 15) (stepDraw 0xFF (word 0xCF00 (fresh.setV 15 9))) = some 0 := by decide
/-- V-MEM-1. -/
theorem test_ldI : after 0xA300 fresh (·.i) = some 0x300 := by decide
/-- V-MEM-3, V-MEM-4. -/
theorem test_addI : after 0xF21E ((fresh.setI 0xFFF).setV 2 1) (fun t => (t.i, t.getV 15)) = some (0, 0) ∧
    after 0xF21E ((fresh.setI 0xF80).setV 2 0xFF) (·.i) = some 0x07F := by decide
/-- V-MEM-5, V-MEM-6. -/
theorem test_ldF : after 0xF329 (fresh.setV 3 0x0A) (·.i) = some 0x032 ∧
    after 0xF329 (fresh.setV 3 0xFF) (·.i) = some 0x4FB := by decide
/-- V-MEM-7, V-MEM-9. -/
theorem test_ldB :
    after 0xF233 ((fresh.setI 0x300).setV 2 254) (fun t => [0x300, 0x301, 0x302].map (Memory.read t.mem)) =
      some [2, 5, 4] ∧
    after 0xF233 ((fresh.setI 0xFFD).setV 2 255) (fun t => [0xFFD, 0xFFE, 0xFFF].map (Memory.read t.mem)) =
      some [2, 5, 5] := by decide
/-- V-MEM-10. -/
theorem test_ldB_bounds : after 0xF233 ((fresh.setI 0xFFE).setV 2 255)
    (fun t => (faultSeen t, t.pc, [0xFFE, 0xFFF].map (Memory.read t.mem))) =
      some ((.faulted, .memBounds, 0x200, 0xF233), 0x200, [0, 0]) := by decide
/-- V-MEM-11. -/
theorem test_storeRegs : after 0xF155 (((fresh.setI 0x208).setV 0 0x62).setV 1 0x55)
    (fun t => (t.i, [0x208, 0x209, 0x20A].map (Memory.read t.mem))) = some (0x208, [0x62, 0x55, 0]) := by
  decide
/-- V-MEM-12 at its last byte, V-MEM-13. -/
theorem test_storeRegs_bounds :
    after 0xFF55 ((fresh.setI 0xFF0).setV 15 16) (fun t => Memory.read t.mem 0xFFF) = some 16 ∧
    after 0xFF55 ((fresh.setI 0xFF1).setV 15 16) faultSeen = some (.faulted, .memBounds, 0x200, 0xFF55) := by
  decide
/-- V-MEM-15, V-MEM-16. -/
theorem test_loadRegs :
    after 0xF065 (put 0x300 [0x10, 0x11] (fresh.setI 0x300)) (fun t => (t.getV 0, t.getV 1, t.i)) =
      some (0x10, 0, 0x300) ∧
    after 0xF065 (put 0xFFF [0x77] (fresh.setI 0xFFF)) (·.getV 0) = some 0x77 := by decide
/-- V-MEM-17. -/
theorem test_loadRegs_bounds : after 0xF165 (fresh.setI 0xFFF) (fun t => (faultSeen t, t.getV 0)) =
    some ((.faulted, .memBounds, 0x200, 0xF165), 0) := by decide
/-- V-DRW-1, V-DRW-4. -/
theorem test_drw_wraps :
    after 0xD011 (put 0x300 [0xFF] ((fresh.setI 0x300).setV 0 60))
      (fun t => (t.getV 15, pixels t [(59, 0), (60, 0), (63, 0), (0, 0), (3, 0), (4, 0), (60, 1)])) =
      some (0, [false, true, true, true, true, false, false]) ∧
    after 0xD011 (put 0x300 [0xC0] (((fresh.setI 0x300).setV 0 70).setV 1 40))
      (fun t => pixels t [(6, 8), (7, 8), (8, 8)]) = some [true, true, false] := by decide
/-- V-DRW-5, V-DRW-10. -/
theorem test_drw_collides :
    after 0xD012 (put 0x300 [0xF0, 0x0F] (lit 1 0 (lit 0 1 (fresh.setI 0x300))))
      (fun t => (t.getV 15, pixels t [(0, 0), (1, 0), (2, 0), (3, 0), (0, 1), (4, 1), (7, 1), (8, 1)])) =
      some (1, [true, false, true, true, true, true, true, false]) ∧
    after 0xDF11 (put 0x300 [0x80] (((fresh.setI 0x300).setV 15 10).setV 1 2))
      (fun t => (t.getV 15, pixels t [(10, 2)])) = some (0, [true]) := by decide
/-- V-TK-1. -/
theorem test_ldVxDt : after 0xF407 (fresh.setDt 5) (fun t => (t.getV 4, t.dt)) = some (5, 5) := by decide
/-- V-TK-2. -/
theorem test_ldDtVx : after 0xF315 (fresh.setV 3 7) (fun t => (t.dt, t.st)) = some (7, 0) := by decide
/-- V-TK-3. -/
theorem test_ldStVx : after 0xF018 (fresh.setV 0 0x1E) (fun t => (t.st, t.dt, t.soundOn)) = some (30, 0, true) := by
  decide
/-- V-TK-13: the first step. -/
theorem test_ldVxK : after 0xF30A ((fresh.setKey 9 true).setKey 2 true)
    (fun t => (t.mode, t.kwreg, t.pc, t.getV 3)) = some (.awaitingKey, 3, 0x202, 0) := by decide
/-- V-TK-13: the second step; V-TK-15. -/
theorem test_key_scan :
    seen (fun t => (t.getV 3, t.mode, t.pc))
      (step ((((fresh.setKey 9 true).setKey 2 true).setMode .awaitingKey).setKwreg 3)) = some (2, .running, 0x200) ∧
    seen (fun t => (t.getV 15, t.mode))
      (step ((((fresh.setV 15 9).setKey 0 true).setMode .awaitingKey).setKwreg 15)) = some (0, .running) := by
  decide
/-- V-TK-7, V-TK-8. -/
theorem test_skp : after 0xE59E ((fresh.setKey 5 true).setV 5 9) (·.pc) = some 0x204 ∧
    after 0xE99E ((fresh.setKey 5 true).setV 5 9) (·.pc) = some 0x202 := by decide
/-- V-TK-9, V-TK-10. -/
theorem test_sknp : after 0xE5A1 (fresh.setKey 5 true) (·.pc) = some 0x202 ∧
    after 0xE9A1 (fresh.setKey 5 true) (·.pc) = some 0x204 := by decide

/-! ### The other agents and the host (95_test_vectors.md 2.6, 2.7) -/

/-- V-TK-4, V-TK-5. -/
theorem test_tick : (((fresh.setDt 2).setSt 1).tick.dt, ((fresh.setDt 2).setSt 1).tick.st) = (1, 0) ∧
    ((fresh.setDt 1).tick.tick.dt, (fresh.setDt 0xFF).tick.dt) = (0, 0xFE) := by decide
/-- V-TK-11, V-TK-12. -/
theorem test_keys : (fresh.setKeyDown 0x17).getKey 7 = true ∧
    ((fresh.setKeyDown 7).setKeyUp 7).getKey 7 = false := by decide
/-- V-RST-1, V-RST-5. -/
theorem test_initialize : transition fontTable .initializeMachine (some (put 0x300 [0xAA] (fresh.setMode .faulted))) =
    .next fresh := by
  rw [show fresh = State.initialized fontTable 0 by decide]
  rfl
/-- V-RST-2. -/
theorem test_loadProgram : seen (fun t => (t.pc, [0x1FF, 0x200, 0x201, 0x202, 0x203, 0x204].map (Memory.read t.mem)))
    (loadProgram [0x61, 0x20, 0x12, 0x02] fresh) = some (0x200, [0, 0x61, 0x20, 0x12, 0x02, 0]) := by decide
/-- V-DRW-13 at the set pixel's four bytes. -/
theorem test_export : ((rgbaExport ⟨1, 2, 3⟩ ⟨4, 5, 6⟩ (lit 2 1 fresh).disp).drop 264).take 5 = [1, 2, 3, 0xFF, 4] := by
  decide
/-- The codes of R192 and R196. -/
theorem test_codes : [DiagnosticKind.unsupportedSys, .unmappedOpcode].map diagnosticCode = [1, 2] ∧
    [FaultCause.none, .fetchBounds, .memBounds, .stackOverflow, .stackUnderflow].map faultCode = [0, 1, 2, 3, 4] := by
  decide

/-- The ports: key levels, also as SKP V5 sees them (V-TK-7), one loaded byte, and the encoder's word for ADD VA, VB
(R211, R106). -/
theorem test_ports : (fresh.setKeyLevels 0x0080).getKey 7 = true ∧ (fresh.setKeyLevels 0x0080).getKey 8 = false ∧
    seen (fun t => Memory.read t.mem 0x208) (strobe fontTable ⟨0, 0x208, 0x62, 0, 0, 0⟩ .ldWe fresh) = some 0x62 ∧
    seen (·.pc) (strobe fontTable ⟨0x0020, 0, 0, 0, 0, 0⟩ .stepEn (word 0xE59E fresh)) = some 0x204 ∧
    seen (·.pc) (strobe fontTable ⟨0, 0, 0, 0, 0, 0⟩ .stepEn (word 0xE59E (fresh.setKey 5 true))) = some 0x202 ∧
    encoderPort 22 10 11 0 = some 0x8AB4 ∧ encoderPort 10 1 0 0x020 = some 0x6120 := by decide

/-! ### Encoder lines (V-ENC-2, V-ENC-3, P7) -/

/-- R106's two lines. -/
theorem test_encode_source_lines : encodeLine "LD V1, 20".toList = .word 0x6120 ∧
    selectForm .LD [['V', '1'], ['2', '0']] formRows = some (10, ⟨1, 0, 0x20, 0, 0⟩) ∧
    encodeLine "ADD VA, VB".toList = .word 0x8AB4 ∧
    selectForm .ADD [['V', 'A'], ['V', 'B']] formRows = some (22, ⟨10, 11, 0, 0, 0⟩) := by decide
theorem test_encode_case : encodeLine "ld v1,20".toList = .word 0x6120 := by decide
theorem test_encode_separators : encodeLine "  add   vA ,vB  ".toList = .word 0x8AB4 := by decide
theorem test_encode_literal_or_number : encodeLine "LD V1, F".toList = .word 0x610F ∧
    encodeLine "LD F, V1".toList = .word 0xF129 ∧ encodeLine "LD [I], V1".toList = .word 0xF155 := by decide
theorem test_encode_leading_zeros : encodeLine "LD V1, 0020".toList = .word 0x6120 := by decide
theorem test_encode_jump_forms : encodeLine "JP V0 300".toList = .word 0xB300 ∧
    encodeLine "JP 1000".toList = .diagnostic .nnnMissing := by decide
theorem test_encode_missing : encodeLine "LD".toList = .diagnostic .missingArguments ∧
    encodeLine "JP".toList = .diagnostic .nnnMissing := by decide
theorem test_encode_unknown : encodeLine "MOVE V2, 1".toList = .diagnostic .unknownMnemonic := by decide
theorem test_encode_too_many : encodeLine "CLS 1".toList = .diagnostic .tooManyArguments := by decide
/-- P7, its last three lines. -/
theorem test_encode_program : encodeProgram "MOVE V2, 1\nJP 1000\njp 204".toList =
    ([0x1204], [⟨1, "MOVE V2, 1".toList, .unknownMnemonic⟩, ⟨2, "JP 1000".toList, .nnnMissing⟩]) := by decide

/-! ### Witnesses: the hypotheses of each statement met together, each clause at a boundary of its range -/

theorem test_witness_EncodeAndDecodeAreInverse :
    (Instr.drw 0xF 0xF 0xF).wf = true ∧ (Instr.sys 0xFFF).wf = true ∧ (Instr.unmapped 0xFFFF).wf = true := by decide
theorem test_witness_EncodeFormAndDecodeAgree :
    formInstr 1 1 2 3 4 5 = some (.cls 0) ∧ formInstr 34 1 2 3 4 5 = some (.sknp 1) ∧ formInstr 35 1 2 3 4 5 = none ∧
    (decode 0x00E0).row = 1 ∧ (decode 0xE5A1).row = 34 := by decide
theorem test_witness_DecoderConsumesTwoBytes :
    (Instr.sknp 5).wf = true ∧ encodeBytes (.sknp 5) = [0xE5, 0xA1] ∧ ([] : List Byte).length < 2 ∧
    ([0xE5] : List Byte).length < 2 := by decide
theorem test_witness_TextEncoderReachesEveryForm :
    (Instr.drw 0 1 5).emitted = true ∧ spelling (.drw 0 1 5) = [['D', 'R', 'W'], ['V', '0'], ['V', '1'], ['5']] ∧
    (Instr.jp 0xFFF).emitted = true ∧ joinTokens (spelling (.jp 0xFFF)) = "JP FFF".toList ∧
    encodeLine (joinTokens (spelling (.jp 0xFFF))) = .word 0x1FFF := by decide
theorem test_witness_EncoderEmitsOnlyForms : encodeLine "SKNP V5".toList = .word 0xE5A1 := by decide
theorem test_witness_OnlyBlankLinesGiveNothing :
    encodeLine [] = .nothing ∧ encodeLine [' ', '\t', '\r', ','] = .nothing ∧ encodeLine [' ', 'X'] ≠ .nothing := by
  decide
theorem test_witness_SeparatorsSplitLines :
    isSeparator ',' = true ∧ ['L', 'D'] ∈ tokensFrom [] [' ', 'L', 'D'] ∧ ['L', 'D'] ≠ [] ∧
    ∀ c ∈ ['L', 'D'], isSeparator c = false := ⟨by decide, by decide, by decide, by simp [isSeparator]⟩
/-- One line with a word, one with a diagnostic, one with nothing. -/
theorem test_witness_ProgramIsEncodedLineByLine :
    '\n' ∉ "CLS".toList ∧ encodeLine "CLS".toList = .word 0x00E0 ∧ '\n' ∉ "JP".toList ∧
    encodeLine "JP".toList = .diagnostic .nnnMissing ∧ '\n' ∉ ([] : List Char) ∧ encodeLine [] = .nothing := by decide
theorem test_witness_OversizedOperandGivesADiagnostic :
    hexOf ['1', '0', '0'] = some 256 ∧ hexOf ['1', '0'] = some 16 ∧ hexOf ['1', '0', '0', '0'] = some 4096 ∧
    hexOf ['F', 'F', 'F'] = some 4095 := by decide
theorem test_witness_InitializeGivesTheResetValues :
    fontTable[0]'(by decide) = 0xF0 ∧ fontTable[79]'(by decide) = 0x80 ∧ Event.tick ≠ .initializeMachine ∧
    transition fontTable .tick none = .refused .notInitialized := ⟨by decide, by decide, by decide, rfl⟩
theorem test_witness_LoadProgramCopiesBytes :
    (List.replicate 3584 (0 : Byte)).length ≤ 3584 ∧ 3584 < (List.replicate 3585 (0 : Byte)).length ∧
    ([] : List Byte).length ≤ 3584 :=
  ⟨List.length_replicate.le, (by decide : 3584 < 3585).trans_eq List.length_replicate.symm, Nat.zero_le _⟩
theorem test_witness_ExportIsRowMajorRgba : 4 * (64 * 31 + 63) + 3 = 8191 ∧ 63 < 64 ∧ 31 < 32 := by decide
theorem test_witness_StepRunsTheDecodedInstruction :
    (word 0x6005 (fresh.setPc 0xFFE)).mode = .running ∧ (word 0x6005 (fresh.setPc 0xFFE)).pc.toNat ≤ 0xFFE ∧
    decodeBytes [Memory.read (word 0x6005 (fresh.setPc 0xFFE)).mem 0xFFE,
      Memory.read (word 0x6005 (fresh.setPc 0xFFE)).mem 0xFFF] = .ok (.ldImm 0 5, []) := by decide
theorem test_witness_StepsThatDoNotFetch :
    (fresh.setPc 0xFFF).mode = .running ∧ 0xFFE < (fresh.setPc 0xFFF).pc.toNat ∧
    0xFFE < (fresh.setPc 0xFFFF).pc.toNat ∧ (fresh.setMode .faulted).mode = .faulted := by decide
/-- No key; key 0 with key F; key F alone. -/
theorem test_witness_KeyWaitTakesTheLowestKey :
    (fresh.setMode .awaitingKey).mode = .awaitingKey ∧ (∀ k, (fresh.setMode .awaitingKey).getKey k = false) ∧
    ((fresh.setKey 0 true).setKey 15 true).getKey 0 = true ∧ (fresh.setKey 15 true).getKey 15 = true ∧
    ∀ j : Nibble, j.toNat < 15 → (fresh.setKey 15 true).getKey j = false := by decide
theorem test_witness_OnlySysAndUnmappedReport :
    (stepReport fresh).isSome = true ∧ (stepReport (word 0x8128 (fresh.setPc 0xFFE))).isSome = true ∧
    fresh.fetched.row = 35 ∧ fresh.mode = .running := by decide
theorem test_witness_OnlyRndUsesTheDraw : ∀ x kk, fresh.fetched ≠ .rnd x kk := by
  rw [show fresh.fetched = .sys 0 by decide]
  exact fun _ _ h => nomatch h
theorem test_witness_PlacedWordRunsNext : (fresh.setPc 0xFFE).pc.toNat ≤ 0xFFE ∧ fresh.pc.toNat ≤ 0xFFE ∧
    seen (·.getV 0) (step ((fresh.setPc 0xFFE).withFetchWord 16 0x6005)) = some 5 := by decide
/-- The invariant at its bounds: PC = 0x1002, and SP = 15 with the cell holding 0x1000. -/
theorem test_witness_StepKeepsTheInvariant :
    (fresh.setPc 0x1002).Inv ∧ seen (fun t => decide t.Inv) (step (fresh.setPc 0x1002)) = some true ∧
    (word 0x00EE ((fresh.setSp 15).setStack 15 0x1000)).Inv ∧
    after 0x00EE ((fresh.setSp 15).setStack 15 0x1000) (fun t => decide t.Inv) = some true := by decide +kernel
theorem test_reset_meets_the_invariant : fresh.Inv := by decide +kernel

theorem test_witness_EveryTransitionKeepsTheInvariant :
    deviceInv none ∧ deviceInv (some fresh) ∧ transition fontTable .initializeMachine none = .next (State.initialized fontTable 0) ∧
    transition fontTable (.setKeyDown 7) (some fresh) = .next (fresh.setKeyDown 7) :=
  ⟨fun _ h => (nomatch h), fun s h => by cases h; exact test_reset_meets_the_invariant, rfl, rfl⟩
theorem test_witness_StepIsTotal : fresh.Inv ∧ (fresh.setSp 15).Inv ∧ (fresh.setPc 0x1002).Inv := by decide +kernel
/-- The three outcomes occur. -/
theorem test_witness_EveryInterleavingIsSafe :
    deviceInv none ∧ execution fontTable [.initializeMachine, .tick] none = .next (some (State.initialized fontTable 0).tick) ∧
    execution fontTable [.tick, .initializeMachine] none = .refused .notInitialized ∧
    loadProgram (List.replicate 3585 0) fresh = .refused .programTooLong :=
  ⟨fun _ h => (nomatch h), rfl, rfl, if_pos ((by decide : maxProgram < 3585).trans_eq List.length_replicate.symm)⟩
theorem test_witness_FaultsArePrecise :
    fresh.mode = .running ∧ after 0x00EE (fresh.setPc 0xFFE) faultSeen = some (.faulted, .stackUnderflow, 0xFFE, 0x00EE) ∧
    seen faultSeen (step (fresh.setPc 0xFFF)) = some (.faulted, .fetchBounds, 0xFFF, 0) := by decide
/-- Each condition on its first value past the bound, and on the last one inside. -/
theorem test_witness_InstructionsFaultExactlyWhen :
    faultOf (.ret 0) fresh = .stackUnderflow ∧ faultOf (.ret 0) (fresh.setSp 1) = .none ∧
    faultOf (.call 0x300) (fresh.setSp 15) = .stackOverflow ∧ faultOf (.call 0x300) (fresh.setSp 14) = .none ∧
    faultOf (.drw 0 0 3) (fresh.setI 0xFFE) = .memBounds ∧ faultOf (.drw 0 0 3) (fresh.setI 0xFFD) = .none ∧
    faultOf (.drw 0 0 0) (fresh.setI 0xFFF) = .none ∧
    faultOf (.ldB 0) (fresh.setI 0xFFE) = .memBounds ∧ faultOf (.ldB 0) (fresh.setI 0xFFD) = .none ∧
    faultOf (.storeRegs 15) (fresh.setI 0xFF1) = .memBounds ∧ faultOf (.storeRegs 15) (fresh.setI 0xFF0) = .none ∧
    faultOf (.loadRegs 1) (fresh.setI 0xFFF) = .memBounds ∧ faultOf (.loadRegs 0) (fresh.setI 0xFFF) = .none := by
  decide
theorem test_witness_InstructionsFaultExactlyWhen_answers :
    exec (.loadRegs 0) (fresh.setI 0xFFF) = .next ((fresh.setI 0xFFF).advance.setV 0 0) ∧
    exec (.cls 0) fresh = .next (fresh.advance.setDisp Display.clear) := ⟨rfl, rfl⟩
theorem test_witness_EachPieceHasItsWriters :
    exec (.ldImm 1 2) fresh = .next (fresh.advance.setV 1 2) ∧ (Instr.ldImm 1 2).row ∉ [1, 32, 2, 5, 12, 17, 23, 18, 19] ∧
    (Instr.ldImm 1 2).row ≠ 5 ∧ (Instr.ldImm 1 2).row ≠ 15 ∧ (Instr.ldImm 1 2).row ≠ 16 ∧ (Instr.ldImm 1 2).row ≠ 14 ∧
    (Instr.ldImm 1 2).row ≠ 31 := ⟨rfl, by decide, by decide, by decide, by decide, by decide, by decide⟩
theorem test_witness_OnlyDestinationsAndTheFlagAreWritten :
    exec (.ldReg 1 2) fresh = .next (fresh.advance.setV 2 0) ∧ vWritten (.ldReg 1 2) = [2] ∧
    vWritten (.loadRegs 2) = [0, 1, 2] ∧ vWritten (.call 0x300) = [] := ⟨rfl, rfl, by decide, rfl⟩
/-- Two ways to the same bytes. -/
theorem test_witness_MemoryIsItsContents :
    Memory.wf (Memory.writeBytes [] 0x300 [1, 2]) ∧ Memory.wf (Memory.write (Memory.write [] 0x301 2) 0x300 1) ∧
    ∀ a, Memory.read (Memory.writeBytes [] 0x300 [1, 2]) a =
      Memory.read (Memory.write (Memory.write [] 0x301 2) 0x300 1) a := by
  have h : Memory.writeBytes [] 0x300 [1, 2] = Memory.write (Memory.write [] 0x301 2) 0x300 1 := by decide
  exact ⟨by decide, by decide +kernel, fun a => by rw [h]⟩
/-- Both bytes (P4), the last stored byte only (I = 0x201, x = 1), the first one only (I = 0x203), and a digit. -/
theorem test_witness_NextFetchSeesTheStore :
    faultOf (.storeRegs 1) (fresh.setI 0x202) = .none ∧ faultOf (.ldB 2) (fresh.setI 0xFFD) = .none ∧
    seen (fun t => (t.mode, t.pc.toNat, t.fetched))
      (exec (.storeRegs 1) (((fresh.setI 0x202).setV 0 0x62).setV 1 0x55)) = some (.running, 0x202, .ldImm 2 0x55) ∧
    seen (·.fetched) (exec (.storeRegs 1) ((fresh.setI 0x201).setV 1 0x62)) = some (.ldImm 2 0) ∧
    seen (·.fetched) (exec (.storeRegs 1) ((put 0x202 [0x62] (fresh.setI 0x203)).setV 0 0x55)) = some (.ldImm 2 0x55) ∧
    seen (·.fetched) (exec (.ldB 2) ((put 0x202 [0x62] (fresh.setI 0x203)).setV 2 254)) = some (.ldImm 2 2) := by
  decide
theorem test_witness_CallThenRetComesBack : fresh.sp.toNat < 15 ∧ (fresh.setSp 14).sp.toNat < 15 := by decide
theorem test_witness_SysIsAReportingNoOp : Instr.sysWf 0 = true ∧ Instr.sysWf 0xFFF = true := by decide
theorem test_witness_UnmappedIsAReportingNoOp : Instr.unmappedWf 0x8128 = true ∧ Instr.unmappedWf 0xFFFF = true := by
  decide
theorem test_witness_RetPopsTheStack :
    (1 ≤ (fresh.setSp 1).sp.toNat ∧ (fresh.setSp 1).sp.toNat < 16) ∧
    (1 ≤ (fresh.setSp 15).sp.toNat ∧ (fresh.setSp 15).sp.toNat < 16) ∧ fresh.sp.toNat = 0 ∧
    16 ≤ (fresh.setSp 16).sp.toNat ∧ 16 ≤ (fresh.setSp 255).sp.toNat := by decide
theorem test_witness_RetPopsTheStack_stops : exec (.ret 0) (fresh.setSp 16) = .fault .noStackCell := rfl
theorem test_witness_JumpAndCallSetPc :
    fresh.sp.toNat < 15 ∧ (fresh.setSp 14).sp.toNat < 15 ∧ (∀ k, k ≠ 15 → k ≠ (fresh.setSp 14).sp.toNat + 1) ∧
    15 ≤ (fresh.setSp 15).sp.toNat ∧ 15 ≤ (fresh.setSp 255).sp.toNat :=
  ⟨by decide, by decide +kernel, fun _ h => h, by decide +kernel, by decide +kernel⟩
theorem test_witness_AddSetsCarry : (14 : Nibble) ≠ 15 ∧ after 0x8EF4 ((fresh.setV 14 0xFF).setV 15 1)
    (fun t => (t.getV 14, t.getV 15)) = some (0, 1) := by decide
theorem test_witness_SubSetsBorrow : (14 : Nibble) ≠ 15 ∧ after 0x8EF5 ((fresh.setV 14 5).setV 15 7)
    (fun t => (t.getV 14, t.getV 15)) = some (0xFE, 1) := by decide
/-- Neither operand VF, and Vy = VF. -/
theorem test_witness_ShrShiftsVy : (14 : Nibble) ≠ 15 ∧ (15 : Nibble) = 15 ∧
    after 0x8EE6 (fresh.setV 14 0xFF) (fun t => (t.getV 14, t.getV 15)) = some (0x7F, 1) ∧
    after 0x8EF6 (fresh.setV 15 0xFF) (fun t => (t.getV 14, t.getV 15)) = some (0, 0) := by decide
/-- The four cases of x and y. -/
theorem test_witness_SubnSetsGreater :
    (14 : Nibble) ≠ 15 ∧ after 0x8ED7 ((fresh.setV 14 1).setV 13 16) (fun t => (t.getV 14, t.getV 15)) = some (15, 1) ∧
    after 0x8FE7 ((fresh.setV 15 5).setV 14 9) (·.getV 15) = some 8 ∧
    after 0x8EF7 ((fresh.setV 14 3).setV 15 9) (fun t => (t.getV 14, t.getV 15)) = some (0xFE, 1) ∧
    after 0x8FF7 (fresh.setV 15 7) (·.getV 15) = some 0 := by decide
theorem test_witness_ShlShiftsVx : (14 : Nibble) ≠ 15 ∧
    after 0x8EFE (fresh.setV 14 0x80) (fun t => (t.getV 14, t.getV 15)) = some (0, 1) ∧
    after 0x8FFE (fresh.setV 15 0x80) (·.getV 15) = some 2 := by decide
/-- A mask with clear bits at both ends of its range. -/
theorem test_witness_RndMasksTheDraw :
    (0x7E : Byte).getLsbD 0 = false ∧ (0x7E : Byte).getLsbD 7 = false ∧ (0x00 : Byte).getLsbD 3 = false := by decide
theorem test_witness_BcdStoresThreeDigits :
    (fresh.setI 0xFFD).i.toNat + 2 ≤ 0xFFF ∧ 0xFFC < (fresh.setI 0xFFD).i.toNat := by decide
theorem test_witness_StoreRegistersAtI :
    (fresh.setI 0xFF0).i.toNat + (15 : Nibble).toNat ≤ 0xFFF ∧ (15 : Nibble).toNat ≤ (15 : Nibble).toNat ∧
    0xFEF < (fresh.setI 0xFF0).i.toNat ∧ (fresh.setI 0xFFF).i.toNat + (0 : Nibble).toNat ≤ 0xFFF := by decide
theorem test_witness_LoadRegistersFromI :
    (fresh.setI 0xFF0).i.toNat + (15 : Nibble).toNat ≤ 0xFFF ∧ (fresh.setI 0xFFF).i.toNat + (0 : Nibble).toNat ≤ 0xFFF ∧
    (0 : Nibble).toNat < (1 : Nibble).toNat ∧ (14 : Nibble).toNat < (15 : Nibble).toNat := by decide
/-- n = 0 anywhere; the last row at 0xFFF; a pixel outside the sprite; a collision at the last column of the last row; no
collision. -/
theorem test_witness_DrawXorsTheSprite :
    (0 : Nibble).toNat = 0 ∧ (fresh.setI 0xFFD).i.toNat + (3 : Nibble).toNat - 1 ≤ 0xFFF ∧
    (∀ row < 15, ∀ col < 8, ¬(63 = ((fresh.getV 0).toNat + col) % 64 ∧ 31 = ((fresh.getV 0).toNat + row) % 32)) ∧
    Display.pixel (lit 7 2 fresh).disp ((0 + 7) % 64) ((0 + 2) % 32) = true ∧
    (Memory.read (put 0xFFF [0x01] (fresh.setI 0xFFD)).mem (0xFFD + 2)).getLsbD (7 - 7) = true ∧
    (∀ row < 3, ∀ col < 8, Display.pixel fresh.disp (0 + col) (0 + row) = true → false = true) := by decide
/-- V-DRW-6, V-DRW-9 with the collision. -/
theorem test_witness_DrawXorsTheSprite_answers :
    after 0xD010 (lit 3 3 ((fresh.setI 0xFFF).setV 15 1)) (fun t => (t.getV 15, pixels t [(3, 3)])) = some (0, [true]) ∧
    after 0xD013 (put 0xFFF [0x01] (lit 7 2 (fresh.setI 0xFFD))) (fun t => (t.getV 15, pixels t [(7, 2)])) =
      some (1, [false]) := by decide

end Sys2Proof.Tests
end

section
/-! PROOF of O6: every instruction the encoder emits has a line, and encoder and decoder agree on it.

Four facts are joined at the end. The mapper of R83 gives the word `encode` gives (its operands land side by side in the
word); the decoder of R66 undoes `encode` on the 34 forms; a line of plain tokens tokenizes to those tokens (R86, R87);
and the form table of R90, tried in order, takes the tokens of a spelling to the form they spell. -/

namespace Sys2Proof

/-! ### The operands of the mapper, placed in a word (R83) -/

theorem setWidth_addr (nnn : Addr) : nnn.setWidth 16 = wordA 0 nnn := BitVec.setWidth_eq_append (by decide)

theorem setWidth_byte (kk : Byte) : kk.setWidth 16 = wordXK 0 0 kk :=
  calc kk.setWidth 16 = (kk.setWidth 12).setWidth 16 := (BitVec.setWidth_setWidth (by decide)).symm
    _ = wordA 0 (kk.setWidth 12) := setWidth_addr _
    _ = wordXK 0 0 kk := congrArg (wordA 0) (BitVec.setWidth_eq_append (by decide))

theorem setWidth_nibble (n : Nibble) : n.setWidth 16 = wordXYN 0 0 0 n := by revert n; decide

theorem setWidth_nibble_shiftLeft_four (y : Nibble) : y.setWidth 16 <<< 4 = wordXYN 0 0 y 0 := by revert y; decide

theorem setWidth_nibble_shiftLeft_eight (x : Nibble) : x.setWidth 16 <<< 8 = wordXYN 0 x 0 0 := by revert x; decide

theorem wordA_or_wordA (op op' : Nibble) (a a' : Addr) :
    wordA op a ||| wordA op' a' = wordA (op ||| op') (a ||| a') := BitVec.or_append

theorem wordXK_or_wordXK (op x op' x' : Nibble) (kk kk' : Byte) :
    wordXK op x kk ||| wordXK op' x' kk' = wordXK (op ||| op') (x ||| x') (kk ||| kk') :=
  (wordA_or_wordA ..).trans (congrArg (wordA _) BitVec.or_append)

theorem wordXYN_or_wordXYN (op x y n op' x' y' n' : Nibble) :
    wordXYN op x y n ||| wordXYN op' x' y' n' = wordXYN (op ||| op') (x ||| x') (y ||| y') (n ||| n') :=
  (wordXK_or_wordXK ..).trans (congrArg (wordXK _ _) BitVec.or_append)

theorem wordA_or_addr (op : Nibble) (nnn : Addr) : wordA op 0 ||| nnn.setWidth 16 = wordA op nnn := by
  rw [setWidth_addr, wordA_or_wordA]; simp

theorem wordXK_or_x (op x : Nibble) (kk : Byte) : wordXK op 0 kk ||| x.setWidth 16 <<< 8 = wordXK op x kk := by
  rw [setWidth_nibble_shiftLeft_eight]
  exact (wordXK_or_wordXK ..).trans (by simp)

theorem wordXK_or_x_kk (op x : Nibble) (kk : Byte) :
    wordXK op 0 0 ||| x.setWidth 16 <<< 8 ||| kk.setWidth 16 = wordXK op x kk := by
  rw [wordXK_or_x, setWidth_byte, wordXK_or_wordXK]; simp

theorem wordXYN_or_x_y (op x y n : Nibble) :
    wordXYN op 0 0 n ||| x.setWidth 16 <<< 8 ||| y.setWidth 16 <<< 4 = wordXYN op x y n := by
  rw [setWidth_nibble_shiftLeft_eight, setWidth_nibble_shiftLeft_four, wordXYN_or_wordXYN, wordXYN_or_wordXYN]; simp

theorem wordXYN_or_x_y_n (op x y n : Nibble) :
    wordXYN op 0 0 0 ||| x.setWidth 16 <<< 8 ||| y.setWidth 16 <<< 4 ||| n.setWidth 16 = wordXYN op x y n := by
  rw [wordXYN_or_x_y, setWidth_nibble, wordXYN_or_wordXYN]; simp

/-- The mapper's arithmetic (R83) builds the word of the instruction the form denotes. -/
theorem encodeForm_eq_map_encode (form : Nat) (x y : Nibble) (kk : Byte) (nnn : Addr) (n : Nibble) :
    encodeForm form x y kk nnn n = (formInstr form x y kk nnn n).map encode :=
  match form with
  | 0 => rfl
  | 1 => rfl
  | 2 => rfl
  | 3 => congrArg some (wordA_or_addr 0x1 nnn)
  | 4 => congrArg some (wordA_or_addr 0xB nnn)
  | 5 => congrArg some (wordA_or_addr 0x2 nnn)
  | 6 => congrArg some (wordXK_or_x_kk 0x3 x kk)
  | 7 => congrArg some (wordXYN_or_x_y 0x5 x y 0x0)
  | 8 => congrArg some (wordXK_or_x_kk 0x4 x kk)
  | 9 => congrArg some (wordXYN_or_x_y 0x9 x y 0x0)
  | 10 => congrArg some (wordXK_or_x_kk 0x6 x kk)
  | 11 => congrArg some (wordXYN_or_x_y 0x8 x y 0x0)
  | 12 => congrArg some (wordA_or_addr 0xA nnn)
  | 13 => congrArg some (wordXK_or_x 0xF x 0x07)
  | 14 => congrArg some (wordXK_or_x 0xF x 0x0A)
  | 15 => congrArg some (wordXK_or_x 0xF x 0x15)
  | 16 => congrArg some (wordXK_or_x 0xF x 0x18)
  | 17 => congrArg some (wordXK_or_x 0xF x 0x29)
  | 18 => congrArg some (wordXK_or_x 0xF x 0x33)
  | 19 => congrArg some (wordXK_or_x 0xF x 0x55)
  | 20 => congrArg some (wordXK_or_x 0xF x 0x65)
  | 21 => congrArg some (wordXK_or_x_kk 0x7 x kk)
  | 22 => congrArg some (wordXYN_or_x_y 0x8 x y 0x4)
  | 23 => congrArg some (wordXK_or_x 0xF x 0x1E)
  | 24 => congrArg some (wordXYN_or_x_y 0x8 x y 0x1)
  | 25 => congrArg some (wordXYN_or_x_y 0x8 x y 0x2)
  | 26 => congrArg some (wordXYN_or_x_y 0x8 x y 0x3)
  | 27 => congrArg some (wordXYN_or_x_y 0x8 x y 0x5)
  | 28 => congrArg some (wordXYN_or_x_y 0x8 x y 0x6)
  | 29 => congrArg some (wordXYN_or_x_y 0x8 x y 0x7)
  | 30 => congrArg some (wordXYN_or_x_y 0x8 x y 0xE)
  | 31 => congrArg some (wordXK_or_x_kk 0xC x kk)
  | 32 => congrArg some (wordXYN_or_x_y_n 0xD x y n)
  | 33 => congrArg some (wordXK_or_x 0xE x 0x9E)
  | 34 => congrArg some (wordXK_or_x 0xE x 0xA1)
  | _ + 35 => rfl

/-! ### The decoder on the 34 forms (R66) -/

/-- Each form's op, n and kk lead the decoder to that form's case, and the fields come back (Laws/Encoding). -/
theorem decode_encode_of_row_le {i : Instr} (h : i.row ≤ 34) : decode (encode i) = i := by
  cases i
  case sys => exact absurd h (by simp [Instr.row])
  case unmapped => exact absurd h (by simp [Instr.row])
  all_goals simp [encode, decode, decodeAlu, decodeMisc]

theorem Instr.row_le_of_emitted {i : Instr} (h : i.emitted = true) : i.row ≤ 34 := by
  cases i
  case sys => cases h
  case unmapped => cases h
  all_goals simp [Instr.row]

end Sys2Proof

namespace Sys2Proof.TextEncoder

/-! ### Tokens of digits and their classes (R88, R92) -/

@[simp] theorem hexDigit_digitChar (d : Nibble) : hexDigit (digitChar d) = some d.toNat := by revert d; decide

@[simp] theorem isSeparator_digitChar (d : Nibble) : isSeparator (digitChar d) = false := by revert d; decide

@[simp] theorem upperChar_digitChar (d : Nibble) : upperChar (digitChar d) = digitChar d := by revert d; decide

theorem digitChar_ne_V (d : Nibble) : digitChar d ≠ 'V' := by revert d; decide

@[simp] theorem hexFrom_digitChar_cons (acc : Nat) (d : Nibble) (cs : List Char) :
    hexFrom acc (digitChar d :: cs) = hexFrom (16 * acc + d.toNat) cs := by
  simp [hexFrom]

theorem hexOf_digit (n : Nibble) : hexOf [digitChar n] = some n.toNat := by
  simp [hexOf, hexFrom]

theorem hexOf_byteToken (kk : Byte) : hexOf (byteToken kk) = some kk.toNat := by
  have hlt := kk.isLt
  simp [hexOf, byteToken, hexFrom, Nat.shiftRight_eq_div_pow]
  omega

theorem hexOf_addrToken (a : Addr) : hexOf (addrToken a) = some a.toNat := by
  have hlt := a.isLt
  simp [hexOf, addrToken, hexFrom, Nat.shiftRight_eq_div_pow]
  omega

theorem fitsOf_of_hexOf {bits : Nat} {t : Token} {v : BitVec bits} (h : hexOf t = some v.toNat) :
    fitsOf bits t = some v := by
  simp [fitsOf, h, v.isLt]

@[simp] theorem fitsOf_digit (n : Nibble) : fitsOf 4 [digitChar n] = some n := fitsOf_of_hexOf (hexOf_digit n)

@[simp] theorem fitsOf_byteToken (kk : Byte) : fitsOf 8 (byteToken kk) = some kk :=
  fitsOf_of_hexOf (hexOf_byteToken kk)

@[simp] theorem fitsOf_addrToken (a : Addr) : fitsOf 12 (addrToken a) = some a :=
  fitsOf_of_hexOf (hexOf_addrToken a)

@[simp] theorem regOf_regToken (x : Nibble) : regOf (regToken x) = some x := by
  simp [regOf, regToken]

@[simp] theorem regOf_cons_of_ne {c : Char} (h : c ≠ 'V') (cs : List Char) : regOf (c :: cs) = none := by
  unfold regOf
  split
  · next heq => exact absurd (List.head_eq_of_cons_eq heq) h
  · rfl

/-! A register token is no number, and a byte token is no register and none of the literals `DT`, `K`, `[I]`. -/

@[simp] theorem regOf_byteToken (kk : Byte) : regOf (byteToken kk) = none := regOf_cons_of_ne (digitChar_ne_V _) _

@[simp] theorem fitsOf_regToken (bits : Nat) (x : Nibble) : fitsOf bits (regToken x) = none := rfl

@[simp] theorem regToken_ne_cons {c : Char} (h : c ≠ 'V') (x : Nibble) (cs : List Char) : regToken x ≠ c :: cs :=
  fun heq => h (List.head_eq_of_cons_eq heq).symm

theorem byteToken_ne_of_hexOf (kk : Byte) {t : Token} (h : hexOf t = none) : byteToken kk ≠ t := by
  rintro rfl
  rw [hexOf_byteToken] at h
  cases h

@[simp] theorem byteToken_ne_literals (kk : Byte) :
    byteToken kk ≠ ['D', 'T'] ∧ byteToken kk ≠ ['K'] ∧ byteToken kk ≠ ['[', 'I', ']'] :=
  ⟨byteToken_ne_of_hexOf kk rfl, byteToken_ne_of_hexOf kk rfl, byteToken_ne_of_hexOf kk rfl⟩

/-! ### Lines of plain tokens (R86, R87) -/

/-- A token that normalization keeps and that no separator cuts. -/
def plainToken (t : Token) : Bool := !t.isEmpty && t.all fun c => !isSeparator c && upperChar c == c

theorem plainToken_iff {t : Token} :
    plainToken t = true ↔ t ≠ [] ∧ (∀ c ∈ t, isSeparator c = false) ∧ ∀ c ∈ t, upperChar c = c := by
  simp [plainToken, forall₂_and]

/-- Characters that are no separators join the token being read. -/
theorem tokensFrom_append {t : Token} (ht : ∀ c ∈ t, isSeparator c = false) (cur : Token) (rest : List Char) :
    tokensFrom cur (t ++ rest) = tokensFrom (cur ++ t) rest := by
  induction t generalizing cur with
  | nil => simp
  | cons c cs ih =>
    obtain ⟨hc, hcs⟩ := List.forall_mem_cons.mp ht
    simp [tokensFrom, hc, ih hcs]

theorem tokensFrom_joinTokens {ts : List Token} (h : ∀ t ∈ ts, t ≠ [] ∧ ∀ c ∈ t, isSeparator c = false) :
    tokensFrom [] (joinTokens ts) = ts := by
  induction ts using joinTokens.induct with
  | case1 => rfl
  | case2 t =>
    obtain ⟨hne, hsep⟩ := h t (by simp)
    have hread := tokensFrom_append hsep [] []
    simpa [joinTokens, tokensFrom, flush, hne] using hread
  | case3 t u ts ih =>
    obtain ⟨⟨hne, hsep⟩, hrest⟩ := List.forall_mem_cons.mp h
    have hspace : isSeparator ' ' = true := rfl
    rw [joinTokens, tokensFrom_append hsep]
    simp [tokensFrom, flush, hspace, hne, ih hrest]

theorem tokens_joinTokens {ts : List Token} (h : ∀ t ∈ ts, plainToken t = true) : tokens (joinTokens ts) = ts := by
  have hsplit : tokensFrom [] (joinTokens ts) = ts := tokensFrom_joinTokens fun t ht =>
    have ⟨hne, hsep, _⟩ := plainToken_iff.mp (h t ht)
    ⟨hne, hsep⟩
  have hupper : ∀ t ∈ ts, t.map upperChar = id t := fun t ht =>
    have ⟨_, _, hup⟩ := plainToken_iff.mp (h t ht)
    (List.map_congr_left hup).trans (List.map_id' t)
  rw [tokens, hsplit, List.map_congr_left hupper, List.map_id]

@[simp] theorem plainToken_digit (n : Nibble) : plainToken [digitChar n] = true := by simp [plainToken]

@[simp] theorem plainToken_byteToken (kk : Byte) : plainToken (byteToken kk) = true := by
  simp [plainToken, byteToken]

@[simp] theorem plainToken_addrToken (a : Addr) : plainToken (addrToken a) = true := by
  simp [plainToken, addrToken]

@[simp] theorem plainToken_regToken (x : Nibble) : plainToken (regToken x) = true := by
  have hV : isSeparator 'V' = false ∧ upperChar 'V' = 'V' := by decide
  simp [plainToken, regToken, hV]

/-- Mnemonics and literals are plain by evaluation, operand tokens by the lemmas above. -/
theorem plainToken_of_mem_spelling (i : Instr) : ∀ t ∈ spelling i, plainToken t = true := by
  cases i <;> simp +decide [spelling]

/-! ### Rows of the form table (R90, R99) -/

theorem selectForm_eq_some {m : Mnemonic} {ops : List Token} {rows : List FormRow} {form : Nat} {f : Fields}
    (h : selectForm m ops rows = some (form, f)) :
    ∃ r ∈ rows, r.mnemonic = m ∧ r.form = form ∧ matchPats noFields r.pats ops = some f := by
  fun_induction selectForm m ops rows with
  | case1 => cases h
  | case2 r rs hm g hg =>
    cases h
    exact ⟨r, List.mem_cons_self, hm, rfl, hg⟩
  | case3 r rs hm hnone ih =>
    obtain ⟨q, hq, hrow⟩ := ih h
    exact ⟨q, List.mem_cons_of_mem r hq, hrow⟩
  | case4 r rs hm ih =>
    obtain ⟨q, hq, hrow⟩ := ih h
    exact ⟨q, List.mem_cons_of_mem r hq, hrow⟩

theorem length_eq_of_matchPats {f g : Fields} {ps : List Pat} {ts : List Token} (h : matchPats f ps ts = some g) :
    ts.length = ps.length := by
  fun_induction matchPats f ps ts with
  | case1 => rfl
  | case2 f p ps t ts g' hp ih => simp [ih h]
  | case3 => cases h
  | case4 => cases h

theorem pats_length_le_maxOperands : ∀ r ∈ formRows, r.pats.length ≤ maxOperands r.mnemonic := by decide

/-- Where a row matches there are not too many operands (R99). -/
theorem length_le_of_selectForm {m : Mnemonic} {ops : List Token} {form : Nat} {f : Fields}
    (h : selectForm m ops formRows = some (form, f)) : ops.length ≤ maxOperands m := by
  obtain ⟨r, hr, rfl, -, hmatch⟩ := selectForm_eq_some h
  exact (length_eq_of_matchPats hmatch).trans_le (pats_length_le_maxOperands r hr)

/-- The instruction that a selected form denotes with the gathered fields (R82, R90). -/
def selectedInstr (p : Nat × Fields) : Option Instr := formInstr p.1 p.2.x p.2.y p.2.kk p.2.nnn p.2.n

theorem encodeTokens_of_selectedInstr {t : Token} {m : Mnemonic} {ops : List Token} {i : Instr}
    (hm : mnemonicOf t = some m) (h : (selectForm m ops formRows).bind selectedInstr = some i) :
    encodeTokens (t :: ops) = .word (encode i) := by
  obtain ⟨⟨form, f⟩, hsel, hi⟩ := Option.bind_eq_some_iff.mp h
  have hlen : ¬ops.length > maxOperands m := Nat.not_lt.mpr (length_le_of_selectForm hsel)
  have hword : encodeForm form f.x f.y f.kk f.nnn f.n = some (encode i) :=
    (encodeForm_eq_map_encode ..).trans (congrArg (Option.map encode) hi)
  simp [encodeTokens, hm, encodeOperands, hsel, hword, hlen]

/-- The rows of the spelling's mnemonic are tried in order: the classes of the tokens rule out every row above the
form's own, and the form's own row gathers the fields (decision D21). -/
theorem encodeTokens_spelling {i : Instr} (h : i.emitted = true) : encodeTokens (spelling i) = .word (encode i) := by
  cases i
  case sys => cases h
  case unmapped => cases h
  case cls x => cases eq_of_beq h; rfl
  case ret x => cases eq_of_beq h; rfl
  case' seReg x y n => cases eq_of_beq h
  case' sneReg x y n => cases eq_of_beq h
  all_goals exact encodeTokens_of_selectedInstr rfl (by simp [formRows, selectForm, matchPats, matchPat]; rfl)

/-- Settles O6: the line tokenizes to the spelling, whose tokens select the instruction's own form; that form's word
is `encode i`, which the decoder reads as `i`. -/
theorem textEncoderReachesEveryForm : Obligations.TextEncoderReachesEveryForm := by
  intro i hemitted
  have htokens : tokens (joinTokens (spelling i)) = spelling i := tokens_joinTokens (plainToken_of_mem_spelling i)
  have hline : encodeLine (joinTokens (spelling i)) = .word (encode i) := by
    rw [encodeLine, htokens, encodeTokens_spelling hemitted]
  exact ⟨htokens, hline, decode_encode_of_row_le (Instr.row_le_of_emitted hemitted)⟩

end Sys2Proof.TextEncoder
end

section
/-! PROOFS of O34, O13 and O14: a canonical memory lists exactly the cells that read as something else than unlisted, so
its contents determine it; with the default font nothing is listed after the reset, and the reset meets the invariant
with any font. -/

namespace Sys2Proof.Machine

open Sys2Proof

/-! ### Memory as its contents (R22, R41) -/

theorem Memory.read_of_forall_ne {m : Memory} {a : Nat} (h : ∀ c ∈ m, c.1 ≠ a) :
    Memory.read m a = Memory.unlisted a := by
  induction m with
  | nil => rfl
  | cons p m ih =>
    obtain ⟨hp, hm⟩ := List.forall_mem_cons.1 h
    rw [Memory.read, if_neg hp, ih hm]

theorem Memory.read_of_mem {m : Memory} (hs : m.Pairwise fun c d => c.1 < d.1) {a : Nat} {b : Byte}
    (h : (a, b) ∈ m) : Memory.read m a = b := by
  induction m with
  | nil => cases h
  | cons p m ih =>
    obtain ⟨hlt, hs⟩ := List.pairwise_cons.1 hs
    rcases List.mem_cons.1 h with rfl | h
    · exact if_pos rfl
    · rw [Memory.read, if_neg (Nat.ne_of_lt (hlt _ h)), ih hs h]

/-- A canonical memory lists a cell exactly when the cell reads as something else than unlisted. -/
theorem Memory.mem_iff_read {m : Memory} (hm : Memory.wf m) (a : Nat) (b : Byte) :
    (a, b) ∈ m ↔ Memory.read m a = b ∧ b ≠ Memory.unlisted a := by
  obtain ⟨hs, hcells⟩ := hm
  refine ⟨fun h => ⟨Memory.read_of_mem hs h, (hcells _ h).2⟩, fun ⟨hread, hne⟩ => ?_⟩
  have hlisted : ∃ c ∈ m, c.1 = a := by
    by_contra hnone
    exact hne (hread ▸ Memory.read_of_forall_ne fun c hc hca => hnone ⟨c, hc, hca⟩)
  obtain ⟨⟨_, d⟩, hc, rfl⟩ := hlisted
  exact (Memory.read_of_mem hs hc).symm.trans hread ▸ hc

theorem Memory.nodup_of_wf {m : Memory} (hm : Memory.wf m) : m.Nodup :=
  hm.1.imp fun hlt heq => Nat.ne_of_lt hlt (congrArg Prod.fst heq)

/-- Settles O34: the two list the same cells, each once, in rising order of address. -/
theorem memoryIsItsContents : Obligations.MemoryIsItsContents := by
  intro m n hm hn hread
  have hcells : ∀ c, c ∈ m ↔ c ∈ n := fun ⟨a, b⟩ => by
    rw [Memory.mem_iff_read hm, Memory.mem_iff_read hn, hread]
  have hperm : m.Perm n := (List.perm_ext_iff_of_nodup (Memory.nodup_of_wf hm) (Memory.nodup_of_wf hn)).2 hcells
  exact hperm.eq_of_pairwise (fun _ _ _ _ hlt hgt => absurd hlt (Nat.lt_asymm hgt)) hm.1 hn.1

/-! ### The reset (R33, R216) -/

/-- The font at 0x000 and zeros above it (R216). -/
theorem Memory.read_initial (font : Font) (a : Nat) :
    Memory.read (Memory.initial font) a = if h : a < Config.fontLen then font[a] else 0 := by
  rw [Memory.initial, Memory.read_writeBytes]
  by_cases h : a < Config.fontLen
  · simp [h]
  · simp [h, Memory.read, Memory.unlisted_of_le (Nat.not_lt.1 h)]

/-- With the default font no cell is listed: what unlisted cells read as is that reset (log entry 17). -/
theorem Memory.initial_fontTable : Memory.initial fontTable = [] :=
  memoryIsItsContents _ _ (Memory.initial_wf fontTable) Memory.nil_wf fun a => Memory.read_initial fontTable a

theorem State.initialized_fontTable : State.initialized fontTable 0 = State.reset := by
  rw [State.initialized, Memory.initial_fontTable, State.reset]

theorem State.initialized_inv (font : Font) (k : Nat) : (State.initialized font k).Inv :=
  have hstack (j : Nat) (hj : j < Config.stackSlots) : (State.initialized font k).stack[j].toNat ≤ 0x1002 := by
    simp [State.initialized, State.reset]
  ⟨(by decide : 0 < Config.stackSlots), (by decide : 0x200 ≤ 0x1002), hstack, Memory.initial_wf font,
    nofun, fun hcause => absurd rfl hcause⟩

/-- Settles O14: the reset state is the one the default font gives. -/
theorem resetMeetsTheInvariant : Obligations.ResetMeetsTheInvariant :=
  ⟨State.initialized_fontTable ▸ State.initialized_inv fontTable 0, State.initialized_inv⟩

/-- Settles O13: memory is read through `Memory.read_initial`, every other piece is the constant of `State.reset`. -/
theorem initializeGivesTheResetValues : Obligations.InitializeGivesTheResetValues := by
  refine ⟨fun font k => ⟨_, rfl, ?values⟩, State.initialized_fontTable, fun _ => rfl, fun _ _ => ⟨rfl, rfl⟩,
    ?refusals⟩
  case values =>
    refine ⟨?v, rfl, rfl, rfl, ?stack, rfl, rfl, ?font, ?zeros, ?keys, Display.pixel_clear, rfl, rfl, rfl⟩
    case v => exact fun _ => Vector.getElem_replicate ..
    case stack => exact fun _ _ => Vector.getElem_replicate ..
    case font => exact fun a h => (Memory.read_initial font a).trans (dif_pos h)
    case zeros => exact fun a h _ => (Memory.read_initial font a).trans (dif_neg (Nat.not_lt.2 h))
    case keys => exact fun _ => Vector.getElem_replicate ..
  case refusals =>
    intro font e he
    cases e
    case initializeMachine => exact absurd rfl he
    all_goals rfl

end Sys2Proof.Machine
end

section
/-! PROOFS of O32, O33, O26 and O27: what an instruction can do is said once, as `Effect`; the writers of each piece of
state and the invariant of R32 are read off its cases. -/

namespace Sys2Proof.Machine

open Sys2Proof

/-! ### The V registers an update leaves alone -/

theorem sameVOutside_self (xs : List Nibble) (s : State) : sameVOutside xs s s := fun _ _ => rfl

theorem sameVOutside.setV {xs : List Nibble} {s t : State} (h : sameVOutside xs s t) {x : Nibble} (hx : x ∈ xs)
    (b : Byte) : sameVOutside xs s (t.setV x b) := fun z hz => by
  have hzx : z ≠ x := fun e => hz (e ▸ hx)
  rw [State.getV_setV, if_neg hzx, h z hz]

theorem sameVOutside.setFlag {xs : List Nibble} {s t : State} (h : sameVOutside xs s t) (hx : vf ∈ xs)
    (b : Bool) : sameVOutside xs s (t.setFlag b) := h.setV hx (flagByte b)

/-- Loading `x + 1` bytes from V0 on writes no register past Vx (R166). -/
theorem sameVOutside_loadV (x : Nibble) (s : State) {bs : List Byte} (hbs : bs.length = x.toNat + 1) :
    sameVOutside (vWritten (.loadRegs x)) s (s.advance.loadV bs) := fun z hz => by
  have hzx : ¬z.toNat < bs.length := fun hlt =>
    hz (List.mem_map.2 ⟨z.toNat, List.mem_range.2 (hbs ▸ hlt), by simp⟩)
  have hlen : bs.length ≤ 16 := hbs ▸ x.isLt
  rw [State.getV_loadV _ bs hlen, dif_neg hzx, State.getV_advance]

/-! ### What executing an instruction can do -/

/-- Where an instruction that only moves PC can leave it: past itself, past the next instruction (R115), or at a
12-bit address (R128, R131). -/
def State.pcTarget (s : State) (a : Word) : Prop :=
  a = s.pc + 2 ∨ a = s.pc + 2 + 2 ∨ ∃ nnn : Addr, a = nnn.setWidth 16

/-- What executing `i` from `s` can leave, as one update of the state for each kind of instruction, with the rows of
the opcode table that write more than PC and V registers. -/
inductive Effect (i : Instr) (s : State) : State → Prop
  /-- A fault: MODE and FAULT alone (R197). -/
  | raised {c : FaultCause} (hc : c ≠ .none) : Effect i s ((s.setMode .faulted).setFault ⟨c, s.pc, encode i⟩)
  /-- A jump, a skip or a no-op: PC alone (R115, R126, R128, R131, R194). -/
  | moved {a : Word} (ha : s.pcTarget a) : Effect i s (s.setPc a)
  /-- V registers (R141 to R151, R166, R176). -/
  | registers {v : Vector Byte Config.nReg} (hv : sameVOutside (vWritten i) s { s with v := v }) :
      Effect i s { s.advance with v := v }
  /-- RND: a V register, and the model's count of draws (R153). -/
  | drawn {v : Vector Byte Config.nReg} (hi : i.row = 31) (hv : sameVOutside (vWritten i) s { s with v := v }) :
      Effect i s { s.advance.countDraw with v := v }
  /-- CLS and DRW: the display, and VF (R171, R172). -/
  | display {v : Vector Byte Config.nReg} {d : Display} (hi : i.row ∈ [1, 32])
      (hv : sameVOutside (vWritten i) s { s with v := v }) : Effect i s { s.advance with v := v, disp := d }
  /-- I (R161 to R163). -/
  | index {a : Addr} (hi : i.row ∈ [12, 17, 23]) : Effect i s (s.advance.setI a)
  /-- DT (R177). -/
  | delayTimer {b : Byte} (hi : i.row = 15) : Effect i s (s.advance.setDt b)
  /-- ST (R178). -/
  | soundTimer {b : Byte} (hi : i.row = 16) : Effect i s (s.advance.setSt b)
  /-- LD Vx,K: the key wait (R179). -/
  | keyWait {x : Nibble} (hi : i.row = 14) : Effect i s ((s.advance.setKwreg x).setMode .awaitingKey)
  /-- LD B and LD [I]: bytes stored from I upward, all inside memory (R164, R165). -/
  | stored {bs : List Byte} (hi : i.row ∈ [18, 19]) (hbs : s.ea 0 + bs.length ≤ Config.memSize) :
      Effect i s (s.advance.storeAtI bs)
  /-- RET (R127). -/
  | popped {a : Word} (hi : i.row = 2) (hsp : s.sp ≠ 0) (ha : s.stackTop = some a) :
      Effect i s ((s.advance.setPc a).setSp (s.sp - 1))
  /-- CALL below the last stack cell (R129). -/
  | pushed {nnn : Addr} (hi : i.row = 5) (hsp : s.sp.toNat + 1 < Config.stackSlots) :
      Effect i s ((s.advance.push (s.pc + 2)).setPc (nnn.setWidth 16))

/-- A taken or untaken skip only moves PC (R115). -/
theorem Effect.skip (i : Instr) (s : State) (c : Bool) : Effect i s (s.advance.skipIf c) := by
  cases c
  · exact .moved (.inl rfl)
  · exact .moved (.inr (.inl rfl))

/-- An instruction that raises a fault unless its guard holds (R47). -/
theorem Effect.guarded {i : Instr} {s t u : State} {p : Prop} [Decidable p] {c : FaultCause} (hc : c ≠ .none)
    (hu : p → Effect i s u) (h : (if p then .next u else raise c (encode i) s) = .next t) : Effect i s t := by
  by_cases hp : p
  · rw [if_pos hp] at h; cases h; exact hu hp
  · rw [if_neg hp] at h; cases h; exact .raised hc

theorem execRet_effect {x : Nibble} {s t : State} (h : execRet x s = .next t) : Effect (.ret x) s t := by
  unfold execRet at h
  by_cases hsp : s.sp = 0
  · rw [if_pos hsp] at h; cases h; exact .raised (by decide)
  · rw [if_neg hsp] at h
    cases htop : s.stackTop with
    | none => rw [htop] at h; cases h
    | some a => rw [htop] at h; cases h; exact .popped rfl hsp htop

theorem execCall_effect {nnn : Addr} {s t : State} (h : execCall nnn s = .next t) : Effect (.call nnn) s t := by
  unfold execCall at h
  by_cases hsp : s.sp.toNat + 1 > Config.stackSlots - 1
  · rw [if_pos hsp] at h; cases h; exact .raised (by decide)
  · rw [if_neg hsp] at h; cases h; exact .pushed rfl (Nat.lt_succ_of_le (Nat.not_lt.1 hsp))

/-- A run of `k + 1` bytes whose last byte passes the bounds test of R47 lies inside memory. -/
theorem State.ea_add_le_of_inMem {s : State} {k : Nat} (h : s.inMem k = true) : s.ea 0 + (k + 1) ≤ Config.memSize :=
  (s.inMem_iff k).1 h

theorem execLoadRegs_effect {x : Nibble} {s t : State} (h : execLoadRegs x s = .next t) :
    Effect (.loadRegs x) s t := by
  refine .guarded (by decide) (fun _ => ?_) h
  have hframe := sameVOutside_loadV x s (s.bytesAtI_length (x.toNat + 1))
  obtain ⟨v, hv⟩ := State.loadV_eq s.advance (s.bytesAtI (x.toNat + 1))
  rw [hv] at hframe ⊢
  exact .registers hframe

/-- What an instruction can do: an update of one of the kinds of `Effect`, in every row of the opcode table. -/
theorem exec_effect {i : Instr} {s t : State} (h : exec i s = .next t) : Effect i s t := by
  have hs : sameVOutside (vWritten i) s s := sameVOutside_self _ s
  cases i
  case ret => exact execRet_effect h
  case call => exact execCall_effect h
  case loadRegs => exact execLoadRegs_effect h
  case storeRegs x =>
    refine .guarded (by decide) (fun hin => .stored (by simp [Instr.row]) ?_) h
    exact s.firstV_length x ▸ State.ea_add_le_of_inMem hin
  case ldB => exact .guarded (by decide) (fun hin => .stored (by simp [Instr.row]) (State.ea_add_le_of_inMem hin)) h
  case drw =>
    exact .guarded (by decide) (fun _ => .display (by simp [Instr.row]) (hs.setFlag (by simp [vWritten]) _)) h
  all_goals cases h
  case cls => exact .display (by simp [Instr.row]) hs
  case ldI | ldF | addI => exact .index (by simp [Instr.row])
  case ldDtVx => exact .delayTimer rfl
  case ldStVx => exact .soundTimer rfl
  case ldVxK => exact .keyWait rfl
  case sys | unmapped => exact .moved (.inl rfl)
  case jp | jpV0 => exact .moved (.inr (.inr ⟨_, rfl⟩))
  case seImm | seReg | sneImm | sneReg | skp | sknp => exact .skip ..
  case rnd => exact .drawn rfl (hs.setV (by simp [vWritten]) _)
  case ldImm | addImm | ldReg | ldVxDt | orReg | andReg | xorReg => exact .registers (hs.setV (by simp [vWritten]) _)
  case addReg | subnReg => exact .registers ((hs.setFlag (by simp [vWritten]) _).setV (by simp [vWritten]) _)
  case subReg => exact .registers ((hs.setV (by simp [vWritten]) _).setFlag (by simp [vWritten]) _)
  case shlReg => exact .registers ((hs.setV (by simp [vWritten]) _).setV (by simp [vWritten]) _)
  case shrReg =>
    exact .registers (((hs.setV (by simp [vWritten]) _).setV (by simp [vWritten]) _).setV (by simp [vWritten]) _)

/-- An instruction whose draw is given can do no more (R120). -/
theorem execDraw_effect {draw : Byte} {i : Instr} {s t : State} (h : execDraw draw i s = .next t) :
    Effect i s t := by
  cases i
  case rnd => cases h; exact .drawn rfl ((sameVOutside_self _ s).setV (by simp [vWritten]) _)
  all_goals exact exec_effect h

/-! ### The writers of each piece -/

theorem Effect.kwreg_mode {i : Instr} {s t : State} (h : Effect i s t) (hrow : i.row ≠ 14) :
    t.kwreg = s.kwreg ∧ (t.mode = s.mode ∨ t.mode = .faulted) := by
  cases h
  case keyWait hi => exact absurd hi hrow
  case raised => exact ⟨rfl, .inr rfl⟩
  all_goals exact ⟨rfl, .inl rfl⟩

/-- Settles O32: each kind of effect leaves a piece as it was, or its rows are the writers of that piece. -/
theorem eachPieceHasItsWriters : Obligations.EachPieceHasItsWriters := by
  intro i s t hexec
  have h := exec_effect hexec
  refine ⟨?keys, fun hrow => ?disp, fun hrow => ?sp, fun hrow => ?stack, fun hrow => ?index, fun hrow => ?dt,
    fun hrow => ?st, fun hrow a => ?mem, h.kwreg_mode, fun hrow => ?draws⟩
  all_goals cases h
  case disp.display hi _ => exact absurd hi hrow
  case sp.popped hi _ _ | sp.pushed hi _ => simp [hi] at hrow
  case stack.pushed hi _ => exact absurd hi hrow
  case index.index hi => exact absurd hi hrow
  case dt.delayTimer hi => exact absurd hi hrow
  case st.soundTimer hi => exact absurd hi hrow
  case mem.stored hi _ => exact absurd hi hrow
  case draws.drawn hi _ => exact absurd hi hrow
  all_goals rfl

/-- Settles O33: the effects that write V registers carry the frame. -/
theorem onlyDestinationsAndTheFlagAreWritten : Obligations.OnlyDestinationsAndTheFlagAreWritten := by
  intro i s t hexec
  cases exec_effect hexec
  case registers hv | drawn hv | display hv => exact hv
  all_goals exact fun _ _ => rfl

/-! ### The invariant -/

theorem State.pcTarget.le {s : State} {a : Word} (ha : s.pcTarget a) (hpc : s.pc.toNat ≤ 0xFFE) :
    a.toNat ≤ 0x1002 := by
  obtain rfl | rfl | ⟨nnn, rfl⟩ := ha <;> bv_omega

/-- Under the invariant a cause is recorded in no mode but Faulted. -/
theorem State.Inv.cause_eq_none {s : State} (hs : s.Inv) (hm : s.mode ≠ .faulted) : s.fault.cause = .none := by
  obtain ⟨_, _, _, _, hfault⟩ := hs
  by_contra hc
  exact hm (hfault.2 hc)

theorem State.Inv.stackTop_le {s : State} (hs : s.Inv) {a : Word} (ha : s.stackTop = some a) : a.toNat ≤ 0x1002 := by
  obtain ⟨hsp, _, hstack, _⟩ := hs
  obtain ⟨hk, rfl⟩ := Vector.getElem?_eq_some_iff.1 ha
  exact hstack _ hk

theorem State.Inv.push_stack_le {s : State} (hs : s.Inv) {a : Word} (ha : a.toNat ≤ 0x1002) (k : Nat)
    (hk : k < Config.stackSlots) : (s.push a).stack[k].toNat ≤ 0x1002 := by
  obtain ⟨_, _, hstack, _⟩ := hs
  rw [State.push_stack, Vector.getElem_setIfInBounds]
  split
  · exact ha
  · exact hstack k hk

/-- An instruction run from an address a fetch can have keeps the invariant: PC moves by at most 4, to a 12-bit address
or to a stack cell; SP stays below 16; a store stays inside memory. -/
theorem Effect.inv {i : Instr} {s t : State} (h : Effect i s t) (hs : s.Inv) (hm : s.mode = .running)
    (hpc : s.pc.toNat ≤ 0xFFE) : t.Inv := by
  have hcause : s.fault.cause = .none := hs.cause_eq_none (by simp [hm])
  have hnext : (s.pc + 2).toNat ≤ 0x1002 := State.pcTarget.le (.inl rfl) hpc
  have hinv := hs
  obtain ⟨hsp, hpc', hstack, hmem, hfault⟩ := hs
  cases h
  case raised hc => exact ⟨hsp, hpc', hstack, hmem, fun _ => hc, fun _ => rfl⟩
  case moved ha => exact ⟨hsp, ha.le hpc, hstack, hmem, hfault⟩
  case keyWait => exact ⟨hsp, hnext, hstack, hmem, nofun, fun hc => absurd hcause hc⟩
  case stored hbs => exact ⟨hsp, hnext, hstack, Memory.writeBytes_wf hmem hbs, hfault⟩
  case popped hne ha =>
    have hsp' : (s.sp - 1).toNat < Config.stackSlots := by
      simp only [Config.stackSlots] at hsp ⊢
      bv_omega
    exact ⟨hsp', hinv.stackTop_le ha, hstack, hmem, hfault⟩
  case pushed nnn hi hlt =>
    have hsp' : (s.sp + 1).toNat < Config.stackSlots := by
      simp only [Config.stackSlots] at hsp hlt ⊢
      bv_omega
    exact ⟨hsp', State.pcTarget.le (.inr (.inr ⟨nnn, rfl⟩)) hpc, hinv.push_stack_le hnext, hmem, hfault⟩
  all_goals exact ⟨hsp, hnext, hstack, hmem, hfault⟩

theorem State.keyScan_inv {s : State} (hs : s.Inv) (hm : s.mode = .awaitingKey) : s.keyScan.Inv := by
  have hcause : s.fault.cause = .none := hs.cause_eq_none (by simp [hm])
  rcases s.keyScan_cases with ⟨hkeep, _⟩ | ⟨k, _, _, _, hkey⟩
  · rwa [hkeep]
  · rw [hkey]
    obtain ⟨hsp, hpc, hstack, hmem, _⟩ := hs
    exact ⟨hsp, hpc, hstack, hmem, nofun, fun hc => absurd hcause hc⟩

/-- The invariant over the cases of R111, for any execution of instructions that keeps to `Effect`. -/
theorem cycle_inv {run : Instr → State → Result}
    (hrun : ∀ {i : Instr} {s t : State}, run i s = .next t → Effect i s t) {s t : State} (hs : s.Inv)
    (h : cycle run s = .next t) : t.Inv := by
  rcases cycle_cases h with ⟨_, rfl⟩ | ⟨hm, rfl⟩ | ⟨hm, hpc, hexec⟩ | ⟨_, _, rfl⟩
  · exact hs
  · exact State.keyScan_inv hs hm
  · exact (hrun hexec).inv hs hm hpc
  · obtain ⟨hsp, hpc, hstack, hmem, _⟩ := hs
    exact ⟨hsp, hpc, hstack, hmem, nofun, fun _ => rfl⟩

/-- Settles O26: every instruction a step runs keeps to `Effect`, and every case of a step keeps the invariant. -/
theorem stepKeepsTheInvariant : Obligations.StepKeepsTheInvariant := fun _ _ hs h => cycle_inv exec_effect hs h

/-- A program that is not refused fits in memory (R218). -/
theorem loadProgram_inv {bytes : List Byte} {s t : State} (hs : s.Inv) (h : loadProgram bytes s = .next t) :
    t.Inv := by
  unfold loadProgram at h
  by_cases hlen : bytes.length > maxProgram
  · rw [if_pos hlen] at h; cases h
  · rw [if_neg hlen] at h
    cases h
    have hfit : Config.origin + bytes.length ≤ Config.memSize := by
      simp only [maxProgram, Config.origin, Config.memSize] at hlen ⊢
      omega
    obtain ⟨hsp, hpc, hstack, hmem, hfault⟩ := hs
    exact ⟨hsp, hpc, hstack, Memory.writeBytes_wf hmem hfit, hfault⟩

theorem State.transition_inv {font : Font} {e : Event} {s t : State} (hs : s.Inv)
    (h : s.transition font e = .next t) : t.Inv := by
  cases e
  case initializeMachine => cases h; exact State.initialized_inv font s.draws
  case loadProgram => exact loadProgram_inv hs h
  case step => exact cycle_inv execDraw_effect hs h
  case tick | setKeyDown | setKeyUp => cases h; exact hs

/-- Settles O27: on a device that was never set up only the reset answers, and it meets the invariant. -/
theorem everyTransitionKeepsTheInvariant : Obligations.EveryTransitionKeepsTheInvariant := by
  intro font e d t hd h
  cases d with
  | some s => exact State.transition_inv (hd s rfl) h
  | none =>
    cases e
    case initializeMachine => cases h; exact State.initialized_inv font 0
    all_goals cases h

end Sys2Proof.Machine
end

section
/-! PROOFS of O29, O25, O31, O35, O19 and O20: what a fetch reads, where instructions fault, and what stops an
execution. `Answer` says once what executing an instruction can answer; the faults of R196 and the safety of every
interleaving are read off its cases. -/

namespace Sys2Proof.Machine

open Sys2Proof

/-! ### What executing an instruction can answer -/

/-- The answers of executing `i` from `s`: the fault `faultOf` tells, a next state with no new fault, or the model's
own stop where SP names no stack cell (log entry 18). -/
inductive Answer (i : Instr) (s : State) : Result → Prop
  | raised (hfault : faultOf i s ≠ .none) : Answer i s (raise (faultOf i s) (encode i) s)
  | ran {t : State} (hnone : faultOf i s = .none) (hrecord : t.fault = s.fault)
      (hmode : t.mode = .faulted → s.mode = .faulted) : Answer i s (.next t)
  | stopped (hnone : faultOf i s = .none) (hsp : Config.stackSlots ≤ s.sp.toNat) : Answer i s (.fault .noStackCell)

theorem Answer.raised_of_eq {i : Instr} {s : State} {c : FaultCause} (hc : c ≠ .none) (h : faultOf i s = c) :
    Answer i s (raise c (encode i) s) := by
  subst h
  exact .raised hc

/-- A memory instruction: it runs where its bounds test `p` holds, which is where `faultOf`'s condition `q` does not
(R47). -/
theorem Answer.guarded {i : Instr} {s t : State} {p q : Prop} [Decidable p] [Decidable q]
    (hfault : faultOf i s = if q then .memBounds else .none) (hpq : p ↔ ¬q) (hrecord : t.fault = s.fault)
    (hmode : t.mode = s.mode) : Answer i s (if p then .next t else raise .memBounds (encode i) s) := by
  by_cases hp : p
  · rw [if_pos hp]
    exact .ran (hfault.trans (if_neg (hpq.1 hp))) hrecord fun h => hmode.symm.trans h
  · rw [if_neg hp]
    exact .raised_of_eq (by decide) (hfault.trans (if_pos (by rwa [hpq, not_not] at hp)))

/-- The bounds test of R47 fails exactly where the last byte is past 0xFFF. -/
theorem State.inMem_iff_not_lt (s : State) (k : Nat) : s.inMem k = true ↔ ¬0xFFF < s.i.toNat + k := by
  rw [s.inMem_iff]
  omega

/-- DRW's test (R47): no row to read, or the last row inside memory. -/
theorem State.inMem_rows_iff (s : State) (n : Nibble) :
    (n = 0 || s.inMem (n.toNat - 1)) = true ↔ ¬(1 ≤ n.toNat ∧ 0xFFF < s.i.toNat + n.toNat - 1) := by
  have hzero : n = 0 ↔ n.toNat = 0 := BitVec.toNat_eq
  rw [Bool.or_eq_true, decide_eq_true_iff, hzero, s.inMem_iff]
  omega

theorem execRet_answer (x : Nibble) (s : State) : Answer (.ret x) s (execRet x s) := by
  have hzero : s.sp = 0 ↔ s.sp.toNat = 0 := BitVec.toNat_eq
  unfold execRet
  by_cases hsp : s.sp = 0
  · rw [if_pos hsp]
    exact .raised_of_eq (by decide) (if_pos (hzero.1 hsp))
  · have hnone : faultOf (.ret x) s = .none := if_neg fun h => hsp (hzero.2 h)
    rw [if_neg hsp]
    cases htop : s.stackTop with
    | some a => exact .ran hnone rfl id
    | none => exact .stopped hnone (Vector.getElem?_eq_none_iff.1 htop)

theorem execCall_answer (nnn : Addr) (s : State) : Answer (.call nnn) s (execCall nnn s) := by
  have hfull : s.sp.toNat + 1 > Config.stackSlots - 1 ↔ 15 ≤ s.sp.toNat := by
    simp only [Config.stackSlots]
    omega
  unfold execCall
  by_cases hsp : s.sp.toNat + 1 > Config.stackSlots - 1
  · rw [if_pos hsp]
    exact .raised_of_eq (by decide) (if_pos (hfull.1 hsp))
  · rw [if_neg hsp]
    exact .ran (if_neg fun h => hsp (hfull.2 h)) rfl id

theorem execLoadRegs_answer (x : Nibble) (s : State) : Answer (.loadRegs x) s (execLoadRegs x s) := by
  unfold execLoadRegs
  obtain ⟨v, hv⟩ := State.loadV_eq s.advance (s.bytesAtI (x.toNat + 1))
  rw [hv]
  exact .guarded rfl (s.inMem_iff_not_lt x.toNat) rfl rfl

/-- A skip raises nothing (R115). -/
theorem Answer.skip {i : Instr} {s : State} (hnone : faultOf i s = .none) (c : Bool) :
    Answer i s (.next (s.advance.skipIf c)) := by
  rw [State.skipIf_eq]
  exact .ran hnone rfl id

/-- What an instruction can answer, in every row of the opcode table. -/
theorem exec_answer (i : Instr) (s : State) : Answer i s (exec i s) := by
  cases i
  case ret x => exact execRet_answer x s
  case call nnn => exact execCall_answer nnn s
  case drw x y n => exact .guarded rfl (s.inMem_rows_iff n) rfl rfl
  case ldB => exact .guarded rfl (s.inMem_iff_not_lt 2) rfl rfl
  case storeRegs x => exact .guarded rfl (s.inMem_iff_not_lt x.toNat) rfl rfl
  case loadRegs x => exact execLoadRegs_answer x s
  case seImm | seReg | sneImm | sneReg | skp | sknp => exact .skip rfl _
  case ldVxK => exact .ran rfl rfl nofun
  all_goals exact .ran rfl rfl id

/-! ### The faults of R196 -/

/-- A fault changes MODE and FAULT alone (R197). -/
theorem sameOutside_setMode_setFault (s : State) (m : Mode) (f : FaultRecord) :
    sameOutside [.mode, .fault] s ((s.setMode m).setFault f) := by
  intro p hp
  cases p
  case mode | fault => simp at hp
  case v | mem => exact fun _ => rfl
  all_goals exact rfl

/-- Settles O31: an instruction answers the fault `faultOf` tells, and where that tells none, no answer is a fault. -/
theorem instructionsFaultExactlyWhen : Obligations.InstructionsFaultExactlyWhen := by
  intro i s
  have hanswer := exec_answer i s
  generalize exec i s = r at hanswer
  cases hanswer with
  | raised hfault =>
    exact ⟨fun _ => ⟨_, raise_next .., rfl, rfl, sameOutside_setMode_setFault _ _ _⟩, fun hnone => absurd hnone hfault⟩
  | ran hnone hrecord hmode =>
    refine ⟨fun hfault => absurd hnone hfault, fun _ t h => ?_⟩
    cases h
    exact ⟨hrecord, hmode⟩
  | stopped hnone _ => exact ⟨fun hfault => absurd hnone hfault, nofun⟩

/-! ### Every order of transitions (R53) -/

/-- With SP below 16 an instruction has a next state (R120). -/
theorem exec_next {s : State} (hsp : s.sp.toNat < Config.stackSlots) (i : Instr) : ∃ t, exec i s = .next t := by
  have hanswer := exec_answer i s
  generalize exec i s = r at hanswer
  cases hanswer with
  | raised => exact ⟨_, raise_next ..⟩
  | ran => exact ⟨_, rfl⟩
  | stopped _ hle => exact absurd hsp (Nat.not_lt.2 hle)

theorem execDraw_next {s : State} (hsp : s.sp.toNat < Config.stackSlots) (draw : Byte) (i : Instr) :
    ∃ t, execDraw draw i s = .next t := by
  have hexec := exec_next hsp i
  cases i
  case rnd => exact ⟨_, rfl⟩
  all_goals exact hexec

/-- A step has a next state where the instruction it runs has one (R111). -/
theorem cycle_next {run : Instr → State → Result} {s : State} (hrun : ∀ i, ∃ t, run i s = .next t) :
    ∃ t, cycle run s = .next t := by
  rcases hm : s.mode with _ | _ | _
  · rcases Nat.lt_or_ge 0xFFE s.pc.toNat with hpc | hpc
    · exact ⟨_, (cycle_fetchBounds hm hpc).trans (raise_next ..)⟩
    · rw [cycle_running hm hpc]
      exact hrun _
  · exact ⟨_, cycle_awaitingKey hm⟩
  · exact ⟨_, cycle_faulted hm⟩

theorem State.transition_next_or_refused {s : State} (hs : s.Inv) (font : Font) (e : Event) :
    (∃ t, s.transition font e = .next t) ∨ s.transition font e = .refused .programTooLong := by
  obtain ⟨hsp, _⟩ := hs
  cases e
  case loadProgram bytes =>
    by_cases hlen : bytes.length > maxProgram
    · exact .inr (if_pos hlen)
    · exact .inl ⟨_, if_neg hlen⟩
  case step draw => exact .inl (cycle_next (execDraw_next hsp draw))
  all_goals exact .inl ⟨_, rfl⟩

/-- The answers of one transition of a device that meets the invariant (R33, R206). -/
theorem transition_next_or_refused {d : Device} (hd : deviceInv d) (font : Font) (e : Event) :
    (∃ t, transition font e d = .next t) ∨ transition font e d = .refused .notInitialized ∨
      transition font e d = .refused .programTooLong := by
  cases d with
  | some s => exact (State.transition_next_or_refused (hd s rfl) font e).imp_right .inr
  | none =>
    cases e
    case initializeMachine => exact .inl ⟨_, rfl⟩
    all_goals exact .inr (.inl rfl)

theorem execution_cons_of_next {font : Font} {e : Event} {d : Device} {t : State}
    (h : transition font e d = .next t) (es : List Event) :
    execution font (e :: es) d = execution font es (some t) := by
  rw [execution, h]

theorem execution_cons_of_refused {font : Font} {e : Event} {d : Device} {r : Refusal}
    (h : transition font e d = .refused r) (es : List Event) : execution font (e :: es) d = .refused r := by
  rw [execution, h]

/-- Settles O29, by induction on the events: each transition is refused, or its next state meets the invariant and
the rest of the events runs from there. -/
theorem everyInterleavingIsSafe : Obligations.EveryInterleavingIsSafe := by
  intro font es
  induction es with
  | nil => exact fun d hd => .inl ⟨d, rfl, hd⟩
  | cons e es ih =>
    intro d hd
    obtain ⟨t, ht⟩ | href | href := transition_next_or_refused hd font e
    · have hinv : t.Inv := everyTransitionKeepsTheInvariant font e d t hd ht
      rw [execution_cons_of_next ht]
      exact ih (some t) fun s hs => Option.some.inj hs ▸ hinv
    · exact .inr (.inl (execution_cons_of_refused href es))
    · exact .inr (.inr (execution_cons_of_refused href es))

/-! ### The fetch (R43, R113) -/

/-- Settles O19: the two bytes make the fetched word, and a step in Running runs the instruction it decodes to. -/
theorem stepRunsTheDecodedInstruction : Obligations.StepRunsTheDecodedInstruction := by
  intro s i hm hpc hdecode
  have hfetched : s.fetched = i := congrArg Prod.fst (Except.ok.inj hdecode)
  exact hfetched ▸ cycle_running hm hpc

/-- Settles O20: the two bytes of a memory word are its halves, the byte at the lower address first. -/
theorem fetchIsBigEndian : Obligations.FetchIsBigEndian := fun _ =>
  ⟨_, rfl, rfl, extract_hi .., (extract_lo _ _ 0 8 (by decide)).trans (extract_all _)⟩

/-- The two bytes of a word, high byte first, make the word (R43). -/
theorem wordOfBytes_extract (w : Word) : wordOfBytes (w.extractLsb' 8 8) (w.extractLsb' 0 8) = w :=
  extract_append_extract (m := 8) (n := 8) w

theorem ofNat_toNat_mod (w : Word) : BitVec.ofNat 16 (w.toNat % 2 ^ 16) = w := by
  rw [Nat.mod_eq_of_lt w.isLt, BitVec.ofNat_toNat, BitVec.setWidth_eq]

theorem decodeTableWord_toNat (w : Word) : decodeTableWord 16 w.toNat = some (decode w) := by
  simp only [decodeTableWord, ofNat_toNat_mod, decodeBytes, wordOfBytes_extract]

/-- A word stored high byte first is read back (R43, R104). -/
theorem Memory.readWord_writeBytes (m : Memory) (a : Nat) (w : Word) :
    Memory.readWord (Memory.writeBytes m a [w.extractLsb' 8 8, w.extractLsb' 0 8]) a = w := by
  simp only [Memory.readWord, Memory.read_writeBytes]
  simpa [wordOfBytes] using wordOfBytes_extract w

/-- Where a fetch is possible, the word goes to the two bytes at PC and the machine runs (log entry 16). -/
theorem State.withFetchWord_eq {s : State} (hpc : s.pc.toNat ≤ 0xFFE) (w : Word) :
    s.withFetchWord 16 w.toNat =
      (s.setMem (Memory.writeBytes s.mem s.pc.toNat [w.extractLsb' 8 8, w.extractLsb' 0 8])).setMode .running := by
  rw [State.withFetchWord, ofNat_toNat_mod, State.placeWord, if_pos (s.canFetch_iff.2 hpc)]

theorem sameOutside_setMem_setMode (s : State) (m : Memory) (md : Mode) :
    sameOutside [.mem, .mode] s ((s.setMem m).setMode md) := by
  intro p hp
  cases p
  case mem | mode => simp at hp
  case v => exact fun _ => rfl
  all_goals exact rfl

theorem State.fetched_withFetchWord {s : State} (hpc : s.pc.toNat ≤ 0xFFE) (w : Word) :
    (s.withFetchWord 16 w.toNat).fetched = decode w := by
  rw [State.withFetchWord_eq hpc]
  exact congrArg decode (Memory.readWord_writeBytes s.mem s.pc.toNat w)

/-- Settles O25: the placed bytes are read back as the word, so the step in Running runs what it decodes to. -/
theorem placedWordRunsNext : Obligations.PlacedWordRunsNext := by
  intro s w hpc
  have hfetched := State.fetched_withFetchWord hpc w
  have hplaced := State.withFetchWord_eq hpc w
  refine ⟨decodeTableWord_toNat w, ?runs, ?frame, fun a hhi hlo => ?bytes⟩
  case runs =>
    rw [step, cycle_running (by rw [hplaced]; rfl) (by rwa [hplaced]), hfetched]
  case frame =>
    rw [hplaced]
    exact sameOutside_setMem_setMode _ _ _
  case bytes =>
    rw [hplaced]
    refine (Memory.read_writeBytes ..).trans (dif_neg ?_)
    simp only [List.length_cons, List.length_nil]
    omega

/-! ### A store over the next instruction (R56) -/

theorem State.read_storeAtI (s : State) (bs : List Byte) (a : Nat) :
    Memory.read (s.storeAtI bs).mem a =
      if h : s.i.toNat ≤ a ∧ a - s.i.toNat < bs.length then bs[a - s.i.toNat]'h.2 else Memory.read s.mem a :=
  Memory.read_writeBytes s.mem s.i.toNat bs a

/-- LD [I],Vx stores register k at I + k (R165). -/
theorem State.read_storeAtI_firstV (x : Nibble) (s : State) (a : Nat) :
    Memory.read (s.advance.storeAtI (s.firstV x)).mem a = byteAfter (.storeRegs x) s a := by
  rw [State.read_storeAtI, State.advance_i, State.advance_mem, byteAfter]
  by_cases ha : s.i.toNat ≤ a ∧ a ≤ s.i.toNat + x.toNat
  · rw [if_pos ha, dif_pos ⟨ha.1, by rw [State.firstV_length]; omega⟩, State.firstV_getElem]
  · rw [if_neg ha, dif_neg (by rw [State.firstV_length]; omega)]

/-- LD B,Vx stores the three digits from I on (R164). -/
theorem State.read_storeAtI_bcdDigits (x : Nibble) (s : State) (a : Nat) :
    Memory.read (s.advance.storeAtI (bcdDigits (s.getV x))).mem a = byteAfter (.ldB x) s a := by
  rw [State.read_storeAtI, State.advance_i, State.advance_mem, byteAfter]
  have hlen : (bcdDigits (s.getV x)).length = 3 := rfl
  by_cases ha : s.i.toNat ≤ a ∧ a - s.i.toNat < 3
  · rw [dif_pos (by rwa [hlen])]
    obtain ⟨hle, hlt⟩ := ha
    obtain ⟨k, rfl⟩ := Nat.exists_eq_add_of_le hle
    have hk : k = 0 ∨ k = 1 ∨ k = 2 := by omega
    rcases hk with rfl | rfl | rfl <;> simp [bcdDigits]
  · rw [dif_neg (by rwa [hlen]), if_neg (by omega), if_neg (by omega), if_neg (by omega)]

/-- Where LD [I],Vx or LD B,Vx does not fault, it stores the bytes `byteAfter` tells and moves PC on (R47). -/
theorem exec_store {i : Instr} {x : Nibble} {s : State} (hi : i = .storeRegs x ∨ i = .ldB x)
    (hnone : faultOf i s = .none) :
    ∃ bs, exec i s = .next (s.advance.storeAtI bs) ∧
      ∀ a, Memory.read (s.advance.storeAtI bs).mem a = byteAfter i s a := by
  rcases hi with rfl | rfl
  · have hin : s.inMem x.toNat = true :=
      (s.inMem_iff_not_lt x.toNat).2 fun hq => by simp [faultOf, hq] at hnone
    exact ⟨_, if_pos hin, s.read_storeAtI_firstV x⟩
  · have hin : s.inMem 2 = true := (s.inMem_iff_not_lt 2).2 fun hq => by simp [faultOf, hq] at hnone
    exact ⟨_, if_pos hin, s.read_storeAtI_bcdDigits x⟩

/-- Settles O35: the next fetch reads the two bytes the store left at the advanced PC. -/
theorem nextFetchSeesTheStore : Obligations.NextFetchSeesTheStore := by
  intro i x s hi hnone
  obtain ⟨bs, hexec, hread⟩ := exec_store hi hnone
  have hfetched : (s.advance.storeAtI bs).fetched =
      decode (byteAfter i s (s.pc + 2).toNat ++ byteAfter i s ((s.pc + 2).toNat + 1)) := by
    rw [← hread, ← hread]
    rfl
  refine ⟨_, _, hexec, rfl, rfl, hfetched, fun hm hpc => ?_⟩
  rw [step, cycle_running (s := s.advance.storeAtI bs) hm hpc, hfetched, State.storeAtI_pc, State.advance_pc]

end Sys2Proof.Machine
end

section
/-! PROOFS of O1 to O5: encoding and decoding are inverse, and the decoder, the opcode table and the mapper agree.

Everything turns on what the decoder keeps of one word: `decode w` is an instruction whose word is `w`. The word of a
well-formed instruction finds that instruction's row (Laws/PerInstr), so the row of `decode w` is the first one `w`
matches; and the rows tell SYS and UNMAPPED words from the 34 forms, which gives the other round trip. -/

namespace Sys2Proof

/-! ### A word put together again from its fields (R62) -/

/-- A word is its op, its x and its low byte. -/
theorem word_eq_wordXK (w : Word) : wordXK (fieldOp w) (fieldX w) (fieldKK w) = w :=
  word_ext (fieldOp_wordXK ..) (fieldX_wordXK ..)
    ((fieldY_wordXK ..).trans (extract_extract w 0 8 4 4 (by decide)))
    ((fieldN_wordXK ..).trans (extract_extract w 0 8 0 4 (by decide)))

section Reassembly

variable {w : Word} {op n : Nibble} {kk : Byte} (hop : (fieldOp w).toNat = op.toNat)
include hop

theorem wordA_fields : wordA op (fieldNNN w) = w :=
  BitVec.eq_of_toNat_eq hop ▸ word_eq_wordA w

theorem wordXK_fields (hkk : fieldKK w = kk) : wordXK op (fieldX w) kk = w :=
  hkk ▸ BitVec.eq_of_toNat_eq hop ▸ word_eq_wordXK w

theorem wordXYN_fields (hn : (fieldN w).toNat = n.toNat) : wordXYN op (fieldX w) (fieldY w) n = w :=
  BitVec.eq_of_toNat_eq hn ▸ BitVec.eq_of_toNat_eq hop ▸ word_eq_wordXYN w

end Reassembly

/-! ### Masks, and the checks of R68 and R69 on the fields -/

@[simp] theorem nibble_and_mask (n : Nibble) : n &&& 0xF#4 = n := BitVec.and_allOnes

@[simp] theorem byte_and_mask (kk : Byte) : kk &&& 0xFF#8 = kk := BitVec.and_allOnes

theorem wordA_and_wordA (op op' : Nibble) (a a' : Addr) :
    wordA op a &&& wordA op' a' = wordA (op &&& op') (a &&& a') := BitVec.and_append

theorem wordXK_and_wordXK (op x op' x' : Nibble) (kk kk' : Byte) :
    wordXK op x kk &&& wordXK op' x' kk' = wordXK (op &&& op') (x &&& x') (kk &&& kk') :=
  (wordA_and_wordA ..).trans (congrArg (wordA _) BitVec.and_append)

theorem wordXYN_and_wordXYN (op x y n op' x' y' n' : Nibble) :
    wordXYN op x y n &&& wordXYN op' x' y' n' = wordXYN (op &&& op') (x &&& x') (y &&& y') (n &&& n') :=
  (wordXK_and_wordXK ..).trans (congrArg (wordXK _ _) BitVec.and_append)

theorem and_opMask (w : Word) : w &&& wordA 0xF 0 = wordA (fieldOp w) 0 := by
  conv_lhs => rw [← word_eq_wordA w, wordA_and_wordA]
  simp

theorem and_nMask (w : Word) : w &&& wordXYN 0 0 0 0xF = wordXYN 0 0 0 (fieldN w) := by
  conv_lhs => rw [← word_eq_wordXYN w, wordXYN_and_wordXYN]
  simp

theorem and_kkMask (w : Word) : w &&& wordXK 0 0 0xFF = wordXK 0 0 (fieldKK w) := by
  conv_lhs => rw [← word_eq_wordXK w, wordXK_and_wordXK]
  simp

theorem fieldNNN_eq (w : Word) : fieldNNN w = fieldX w ++ fieldKK w :=
  (congrArg fieldNNN (word_eq_wordXK w)).symm.trans (fieldNNN_wordA ..)

/-- R68 on the field kk: a word of op 0 is a SYS word when it is neither a CLS nor a RET word. -/
theorem sysWf_iff (w : Word) : Instr.sysWf (fieldNNN w) = true ↔ fieldKK w ≠ 0xE0 ∧ fieldKK w ≠ 0xEE := by
  have hlow : fieldNNN w &&& 0x0FF#12 = 0#4 ++ fieldKK w :=
    calc fieldNNN w &&& 0x0FF#12 = (fieldX w ++ fieldKK w) &&& (0#4 ++ 0xFF#8) := by rw [fieldNNN_eq]; rfl
      _ = 0#4 ++ fieldKK w := by rw [BitVec.and_append, byte_and_mask, BitVec.and_zero]
  have hinj : Function.Injective ((0#4 : Nibble) ++ · : Byte → Addr) :=
    Function.LeftInverse.injective (g := (·.extractLsb' 0 8)) fun kk =>
      (extract_lo 0#4 kk 0 8 (by decide)).trans (extract_all kk)
  simp only [Instr.sysWf, Bool.and_eq_true, bne_iff_ne, hlow]
  exact and_congr (hinj.ne_iff (y := 0xE0)) (hinj.ne_iff (y := 0xEE))

/-- R69 on the fields: the minors that op 8, E and F give no meaning. -/
theorem unmappedWf_iff (w : Word) : Instr.unmappedWf w = true ↔
    (fieldOp w = 0x8 ∧ fieldN w ∉ [0x0, 0x1, 0x2, 0x3, 0x4, 0x5, 0x6, 0x7, 0xE]) ∨
    (fieldOp w = 0xE ∧ fieldKK w ∉ [0x9E, 0xA1]) ∨
    (fieldOp w = 0xF ∧ fieldKK w ∉ [0x07, 0x0A, 0x15, 0x18, 0x1E, 0x29, 0x33, 0x55, 0x65]) := by
  have hop : ∀ op : Nibble, w &&& 0xF000#16 = wordA op 0 ↔ fieldOp w = op := fun op =>
    (and_opMask w).congr_left.trans (Function.LeftInverse.injective fun o => fieldOp_wordA o 0).eq_iff
  have hn : ∀ ns : List Nibble, w &&& 0x000F#16 ∈ ns.map (wordXYN 0 0 0) ↔ fieldN w ∈ ns := fun ns =>
    and_nMask w ▸ List.mem_map_of_injective (Function.LeftInverse.injective (fieldN_wordXYN 0 0 0))
  have hkk : ∀ kks : List Byte, w &&& 0x00FF#16 ∈ kks.map (wordXK 0 0) ↔ fieldKK w ∈ kks := fun kks =>
    and_kkMask w ▸ List.mem_map_of_injective (Function.LeftInverse.injective (fieldKK_wordXK 0 0))
  simp only [Instr.unmappedWf, Bool.or_eq_true, Bool.and_eq_true, beq_iff_eq, Bool.not_eq_true', List.contains_eq_mem,
    decide_eq_false_iff_not, or_assoc]
  exact or_congr (and_congr (hop 0x8) (not_congr (hn [0x0, 0x1, 0x2, 0x3, 0x4, 0x5, 0x6, 0x7, 0xE])))
    (or_congr (and_congr (hop 0xE) (not_congr (hkk [0x9E, 0xA1])))
      (and_congr (hop 0xF) (not_congr (hkk [0x07, 0x0A, 0x15, 0x18, 0x1E, 0x29, 0x33, 0x55, 0x65]))))

/-! ### The decoder loses nothing (R66), case by case -/

section Cases

variable {w : Word}

theorem decodeAlu_keeps_word (hop : (fieldOp w).toNat = 0x8) :
    (decodeAlu w).wf = true ∧ encode (decodeAlu w) = w := by
  unfold decodeAlu
  split
  case h_10 h0 h1 h2 h3 h4 h5 h6 h7 hE =>
    refine ⟨(unmappedWf_iff w).2 (.inl ⟨BitVec.eq_of_toNat_eq hop, ?_⟩), rfl⟩
    simpa [← BitVec.toNat_inj] using ⟨h0, h1, h2, h3, h4, h5, h6, h7, hE⟩
  all_goals exact ⟨rfl, wordXYN_fields hop ‹_›⟩

theorem decodeMisc_keeps_word (hop : (fieldOp w).toNat = 0xF) :
    (decodeMisc w).wf = true ∧ encode (decodeMisc w) = w := by
  unfold decodeMisc
  split_ifs with h07 h0A h15 h18 h1E h29 h33 h55 h65
  case neg =>
    refine ⟨(unmappedWf_iff w).2 (.inr (.inr ⟨BitVec.eq_of_toNat_eq hop, ?_⟩)), rfl⟩
    simpa using ⟨h07, h0A, h15, h18, h1E, h29, h33, h55, h65⟩
  all_goals exact ⟨rfl, wordXK_fields hop ‹_›⟩

end Cases

/-- What the decoder gives for a word is an instruction of the hardware, and the word is its word. -/
theorem decode_keeps_word (w : Word) : (decode w).wf = true ∧ encode (decode w) = w := by
  unfold decode
  split
  next hop =>
    split_ifs with hE0 hEE
    · exact ⟨rfl, wordXK_fields hop hE0⟩
    · exact ⟨rfl, wordXK_fields hop hEE⟩
    · exact ⟨(sysWf_iff w).2 ⟨hE0, hEE⟩, wordA_fields hop⟩
  next hop => exact ⟨rfl, wordA_fields hop⟩
  next hop => exact ⟨rfl, wordA_fields hop⟩
  next hop => exact ⟨rfl, wordXK_fields hop rfl⟩
  next hop => exact ⟨rfl, wordXK_fields hop rfl⟩
  next hop => exact ⟨rfl, wordXYN_fields hop rfl⟩
  next hop => exact ⟨rfl, wordXK_fields hop rfl⟩
  next hop => exact ⟨rfl, wordXK_fields hop rfl⟩
  next hop => exact decodeAlu_keeps_word hop
  next hop => exact ⟨rfl, wordXYN_fields hop rfl⟩
  next hop => exact ⟨rfl, wordA_fields hop⟩
  next hop => exact ⟨rfl, wordA_fields hop⟩
  next hop => exact ⟨rfl, wordXK_fields hop rfl⟩
  next hop => exact ⟨rfl, wordXYN_fields hop rfl⟩
  next hop =>
    split_ifs with h9E hA1
    · exact ⟨rfl, wordXK_fields hop h9E⟩
    · exact ⟨rfl, wordXK_fields hop hA1⟩
    · refine ⟨(unmappedWf_iff w).2 (.inr (.inl ⟨BitVec.eq_of_toNat_eq hop, ?_⟩)), rfl⟩
      simpa using ⟨h9E, hA1⟩
  next =>
    have hlt := (fieldOp w).isLt
    exact decodeMisc_keeps_word (by grind)

theorem decode_wf (w : Word) : (decode w).wf = true := (decode_keeps_word w).1

@[simp] theorem encode_decode (w : Word) : encode (decode w) = w := (decode_keeps_word w).2

/-! ### The rows of the opcode table (R65, R68, R69) -/

open Laws in
/-- The lemmas of Laws/PerInstr, one per constructor. -/
theorem firstRow_encode {i : Instr} : i.wf = true → firstRow (encode i) = some i.row :=
  match i with
  | .cls _ => EncodeFindsRow.cls _
  | .ret _ => EncodeFindsRow.ret _
  | .jp _ => EncodeFindsRow.jp _
  | .jpV0 _ => EncodeFindsRow.jpV0 _
  | .call _ => EncodeFindsRow.call _
  | .seImm _ _ => EncodeFindsRow.seImm _ _
  | .seReg _ _ _ => EncodeFindsRow.seReg _ _ _
  | .sneImm _ _ => EncodeFindsRow.sneImm _ _
  | .sneReg _ _ _ => EncodeFindsRow.sneReg _ _ _
  | .ldImm _ _ => EncodeFindsRow.ldImm _ _
  | .ldReg _ _ => EncodeFindsRow.ldReg _ _
  | .ldI _ => EncodeFindsRow.ldI _
  | .ldVxDt _ => EncodeFindsRow.ldVxDt _
  | .ldVxK _ => EncodeFindsRow.ldVxK _
  | .ldDtVx _ => EncodeFindsRow.ldDtVx _
  | .ldStVx _ => EncodeFindsRow.ldStVx _
  | .ldF _ => EncodeFindsRow.ldF _
  | .ldB _ => EncodeFindsRow.ldB _
  | .storeRegs _ => EncodeFindsRow.storeRegs _
  | .loadRegs _ => EncodeFindsRow.loadRegs _
  | .addImm _ _ => EncodeFindsRow.addImm _ _
  | .addReg _ _ => EncodeFindsRow.addReg _ _
  | .addI _ => EncodeFindsRow.addI _
  | .orReg _ _ => EncodeFindsRow.orReg _ _
  | .andReg _ _ => EncodeFindsRow.andReg _ _
  | .xorReg _ _ => EncodeFindsRow.xorReg _ _
  | .subReg _ _ => EncodeFindsRow.subReg _ _
  | .shrReg _ _ => EncodeFindsRow.shrReg _ _
  | .subnReg _ _ => EncodeFindsRow.subnReg _ _
  | .shlReg _ _ => EncodeFindsRow.shlReg _ _
  | .rnd _ _ => EncodeFindsRow.rnd _ _
  | .drw _ _ _ => EncodeFindsRow.drw _ _ _
  | .skp _ => EncodeFindsRow.skp _
  | .sknp _ => EncodeFindsRow.sknp _
  | .sys _ => EncodeFindsRow.sys _
  | .unmapped _ => EncodeFindsRow.unmapped _

theorem firstRow_eq_row_decode (w : Word) : firstRow w = some (decode w).row :=
  (congrArg firstRow (encode_decode w)).symm.trans (firstRow_encode (decode_wf w))

/-- Settles O2: the word of the decoded instruction is the word itself, and it finds the instruction's row. -/
theorem decodeTakesTheFirstMatchingRow : Obligations.DecodeTakesTheFirstMatchingRow := firstRow_eq_row_decode

/-! ### Both round trips -/

theorem row_decode_encode {i : Instr} (h : i.wf = true) : (decode (encode i)).row = i.row :=
  Option.some.inj ((firstRow_eq_row_decode _).symm.trans (firstRow_encode h))

theorem Instr.eq_sys_of_row {i : Instr} (h : i.row = 35) : ∃ nnn, i = .sys nnn := by
  cases i
  case sys nnn => exact ⟨nnn, rfl⟩
  all_goals cases h

theorem Instr.eq_unmapped_of_row {i : Instr} (h : i.row = 36) : ∃ w, i = .unmapped w := by
  cases i
  case unmapped w => exact ⟨w, rfl⟩
  all_goals cases h

/-- A SYS or UNMAPPED word decodes to its own class, and within a class the word determines the instruction; the other
classes are the 34 forms. -/
theorem decode_encode {i : Instr} (h : i.wf = true) : decode (encode i) = i := by
  have hrow := row_decode_encode h
  have hword := encode_decode (encode i)
  cases i
  case sys nnn =>
    obtain ⟨a, ha⟩ := Instr.eq_sys_of_row hrow
    rw [ha] at hword ⊢
    have hnnn := congrArg fieldNNN hword
    simpa [encode] using hnnn
  case unmapped w =>
    obtain ⟨v, hv⟩ := Instr.eq_unmapped_of_row hrow
    rw [hv] at hword ⊢
    exact congrArg Instr.unmapped hword
  all_goals exact decode_encode_of_row_le (by simp [Instr.row])

/-- Settles O1: the decoder keeps every bit of a word, and so undoes `encode`. -/
theorem encodeAndDecodeAreInverse : Obligations.EncodeAndDecodeAreInverse :=
  ⟨fun _ => decode_encode, decode_keeps_word⟩

/-! ### The mapper and the decoder (R72, R83) -/

/-- Every form number denotes an instruction of that form that the encoder can emit, whatever the operands are. -/
theorem formInstr_eq_some {form : Nat} (h1 : 1 ≤ form) (h34 : form ≤ 34) (x y : Nibble) (kk : Byte) (nnn : Addr)
    (n : Nibble) : ∃ i, formInstr form x y kk nnn n = some i ∧ i.row = form ∧ i.emitted = true := by
  interval_cases form <;> exact ⟨_, rfl, rfl, rfl⟩

@[simp] theorem word_and_mask (w : Word) : w &&& 0xFFFF#16 = w := BitVec.and_allOnes

theorem wordXYN_and_maskXY (op x y n : Nibble) : wordXYN op x y n &&& 0xFFF0#16 = wordXYN op x y 0 :=
  (wordXYN_and_wordXYN op x y n 0xF 0xF 0xF 0x0).trans (by simp)

/-- The form of an instruction, given the fields of its word, denotes the instruction with the untested fields 0; so
`encode` of the two differs in the untested bits alone (R67). -/
theorem map_encode_formInstr_fields {i : Instr} (h : i.row ≤ 34) :
    (formInstr i.row (fieldX (encode i)) (fieldY (encode i)) (fieldKK (encode i)) (fieldNNN (encode i))
      (fieldN (encode i))).map encode = some (encode i &&& testedBits i.row) := by
  cases i
  case sys | unmapped => exact absurd h (by simp [Instr.row])
  case cls x => exact congrArg some (mask_ignores_x (m := 0xF0FF#16) (by decide) 0x0 x 0xE 0x0).symm
  case ret x => exact congrArg some (mask_ignores_x (m := 0xF0FF#16) (by decide) 0x0 x 0xE 0xE).symm
  case seReg | sneReg => simp [Instr.row, formInstr, encode, testedBits, wordXYN_and_maskXY]
  all_goals simp [Instr.row, formInstr, encode, testedBits]

/-- Settles O3: the mapper's word is the word of the form's instruction, which the decoder gives back; and the fields of
a word are those of the instruction it decodes to. -/
theorem encodeFormAndDecodeAgree : Obligations.EncodeFormAndDecodeAgree := by
  refine ⟨fun form x y kk nnn n h1 h34 => ?forms, fun w hrow => ?words, rfl⟩
  case forms =>
    obtain ⟨i, hi, hrow, hemitted⟩ := formInstr_eq_some h1 h34 x y kk nnn n
    refine ⟨i, encode i, hi, ?_, decode_encode_of_row_le (hrow.trans_le h34), hrow, hemitted⟩
    rw [encodeForm_eq_map_encode, hi, Option.map_some]
  case words =>
    have h := map_encode_formInstr_fields hrow
    rwa [encode_decode, ← encodeForm_eq_map_encode] at h

/-! ### Streams of bytes (R43, R71), and words written out -/

/-- Settles O5: an instruction's two bytes are the halves of its word. -/
theorem decoderConsumesTwoBytes : Obligations.DecoderConsumesTwoBytes := by
  refine ⟨fun _ _ _ => rfl, fun i rest hwf => ?bytes, fun bs hlen => ?short⟩
  case bytes =>
    have hword : wordOfBytes ((encode i).extractLsb' 8 8) ((encode i).extractLsb' 0 8) = encode i :=
      extract_append_extract (m := 8) (n := 8) (encode i)
    show Except.ok (decode (wordOfBytes _ _), rest) = _
    rw [hword, decode_encode hwf]
  case short =>
    match bs, hlen with
    | [], _ => rfl
    | [_], _ => rfl

/-- Settles O4, by running the decoder on the nine words. -/
theorem writtenWordsDecode : Obligations.WrittenWordsDecode := by
  unfold Obligations.WrittenWordsDecode
  decide

end Sys2Proof
end

section
/-! PROOFS of O7 to O12: what a line, its tokens and a whole text give to the text encoder.

A line with a token gives a diagnostic or the word of an instruction the encoder can emit; what is left follows the
recursions that read text: `tokensFrom` over the characters of a line, `linesFrom` over the characters of a text,
`encodeLines` over its lines, and `selectForm` over the rows of the form table. -/

namespace Sys2Proof.TextEncoder

open Sys2Proof

/-! ### What a line of tokens can give (R90, R97, R105) -/

theorem form_bounds_of_mem_formRows : ∀ r ∈ formRows, 1 ≤ r.form ∧ r.form ≤ 34 := by decide

/-- A selected form is a form number of R83, so the mapper gives the word of an instruction the encoder can emit. -/
theorem encodeForm_of_selectForm {m : Mnemonic} {ops : List Token} {form : Nat} {f : Fields}
    (h : selectForm m ops formRows = some (form, f)) :
    ∃ i : Instr, i.emitted = true ∧ encodeForm form f.x f.y f.kk f.nnn f.n = some (encode i) := by
  obtain ⟨r, hr, -, rfl, -⟩ := selectForm_eq_some h
  obtain ⟨hlow, hhigh⟩ := form_bounds_of_mem_formRows r hr
  obtain ⟨i, hi, -, hemitted⟩ := formInstr_eq_some hlow hhigh f.x f.y f.kk f.nnn f.n
  exact ⟨i, hemitted, (encodeForm_eq_map_encode ..).trans (congrArg (Option.map encode) hi)⟩

theorem encodeOperands_cases (m : Mnemonic) (ops : List Token) :
    (∃ i : Instr, i.emitted = true ∧ encodeOperands m ops = .word (encode i)) ∨
    ∃ r, encodeOperands m ops = .diagnostic r := by
  unfold encodeOperands
  split
  · exact .inr ⟨_, rfl⟩
  · split
    next form f hsel =>
      obtain ⟨i, hemitted, hword⟩ := encodeForm_of_selectForm hsel
      exact .inl ⟨i, hemitted, by rw [hword]⟩
    next =>
      split
      · exact .inr ⟨_, rfl⟩
      · exact .inr ⟨_, rfl⟩

/-- A first token gives a word of the 34 forms or a diagnostic, never nothing. -/
theorem encodeTokens_cons_cases (t : Token) (ops : List Token) :
    (∃ i : Instr, i.emitted = true ∧ encodeTokens (t :: ops) = .word (encode i)) ∨
    ∃ r, encodeTokens (t :: ops) = .diagnostic r := by
  rw [encodeTokens]
  split
  · exact encodeOperands_cases _ ops
  · exact .inr ⟨_, rfl⟩

theorem encodeTokens_eq_nothing_iff {ts : List Token} : encodeTokens ts = .nothing ↔ ts = [] := by
  cases ts with
  | nil => simp [encodeTokens]
  | cons t ops =>
    obtain ⟨i, -, h⟩ | ⟨r, h⟩ := encodeTokens_cons_cases t ops
    · simp [h]
    · simp [h]

theorem emitted_of_encodeTokens {ts : List Token} {w : Word} (h : encodeTokens ts = .word w) :
    ∃ i : Instr, i.emitted = true ∧ encode i = w := by
  cases ts with
  | nil => cases h
  | cons t ops =>
    obtain ⟨i, hemitted, hi⟩ | ⟨r, hr⟩ := encodeTokens_cons_cases t ops
    · exact ⟨i, hemitted, LineResult.word.inj (hi.symm.trans h)⟩
    · cases hr.symm.trans h

/-- Settles O7: a selected form's word is that of an instruction the encoder can emit, which the decoder gives back. -/
theorem encoderEmitsOnlyForms : Obligations.EncoderEmitsOnlyForms := by
  intro line w h
  obtain ⟨i, hemitted, rfl⟩ := emitted_of_encodeTokens h
  exact ⟨i, hemitted, rfl, decode_encode_of_row_le (Instr.row_le_of_emitted hemitted)⟩

/-! ### Separators and tokens (R86) -/

@[simp] theorem flush_nil : flush [] = [] := rfl

theorem mem_flush {cur t : Token} : t ∈ flush cur ↔ t = cur ∧ cur ≠ [] := by
  cases cur with
  | nil => simp
  | cons c cs => simp [flush]

theorem flush_eq_nil_iff {cur : Token} : flush cur = [] ↔ cur = [] := by
  cases cur with
  | nil => simp
  | cons c cs => simp [flush]

theorem tokensFrom_append_separator (cur : Token) (a b : List Char) {c : Char} (hc : isSeparator c = true) :
    tokensFrom cur (a ++ c :: b) = tokensFrom cur a ++ tokensFrom [] b := by
  fun_induction tokensFrom cur a with
  | case1 cur => simp [tokensFrom, hc]
  | case2 cur d ds hd ih => simp [tokensFrom, hd, ih]
  | case3 cur d ds hd ih => simp [tokensFrom, hd, ih]

theorem mem_tokensFrom {cur t : Token} {line : List Char} (hcur : ∀ c ∈ cur, isSeparator c = false)
    (h : t ∈ tokensFrom cur line) : t ≠ [] ∧ ∀ c ∈ t, isSeparator c = false := by
  fun_induction tokensFrom cur line with
  | case1 cur =>
    obtain ⟨rfl, hne⟩ := mem_flush.mp h
    exact ⟨hne, hcur⟩
  | case2 cur c cs hc ih =>
    obtain hflush | hrest := List.mem_append.mp h
    · obtain ⟨rfl, hne⟩ := mem_flush.mp hflush
      exact ⟨hne, hcur⟩
    · exact ih (by simp) hrest
  | case3 cur c cs hc ih =>
    refine ih (fun d hd => ?_) h
    obtain hd | hd := List.mem_append.mp hd
    · exact hcur d hd
    · simpa [List.mem_singleton.mp hd] using hc

theorem tokensFrom_eq_nil_iff {cur : Token} {line : List Char} :
    tokensFrom cur line = [] ↔ cur = [] ∧ ∀ c ∈ line, isSeparator c = true := by
  fun_induction tokensFrom cur line with
  | case1 cur => simp [flush_eq_nil_iff]
  | case2 cur c cs hc ih => simp [flush_eq_nil_iff, ih, hc]
  | case3 cur c cs hc ih => simp [ih, hc]

/-- Settles O8: only a line without tokens gives nothing, and only separators leave no token. -/
theorem onlyBlankLinesGiveNothing : Obligations.OnlyBlankLinesGiveNothing := by
  intro line
  calc encodeLine line = .nothing
    _ ↔ tokens line = [] := encodeTokens_eq_nothing_iff
    _ ↔ tokensFrom [] line = [] := List.map_eq_nil_iff
    _ ↔ ∀ c ∈ line, isSeparator c = true := by simp [tokensFrom_eq_nil_iff]

/-- Settles O9: a separator ends the token being read, and every other character joins it. -/
theorem separatorsSplitLines : Obligations.SeparatorsSplitLines := by
  refine ⟨fun a b c hc => tokensFrom_append_separator [] a b hc, fun line t => mem_tokensFrom (by simp),
    fun line hne hsep => ?_⟩
  exact tokensFrom_joinTokens (ts := [line]) (by simpa using ⟨hne, hsep⟩)

/-! ### Lines of a text (R85, R100) -/

theorem linesFrom_append_lineFeed (cur a b : List Char) :
    linesFrom cur (a ++ '\n' :: b) = linesFrom cur a ++ lines b := by
  fun_induction linesFrom cur a with
  | case1 cur => simp [linesFrom, lines]
  | case2 cur c cs hc ih => simp [linesFrom, hc, ih]
  | case3 cur c cs hc ih => simp [linesFrom, hc, ih]

theorem linesFrom_of_no_lineFeed {cur text : List Char} (h : '\n' ∉ text) : linesFrom cur text = [cur ++ text] := by
  fun_induction linesFrom cur text with
  | case1 cur => simp
  | case2 cur c cs hc ih => exact absurd (by simp [eq_of_beq hc]) h
  | case3 cur c cs hc ih => simp [ih (List.not_mem_of_not_mem_cons h)]

/-! What the first line adds to the result of the lines after it. -/

section FirstLine

variable {l : List Char} (k : Nat) (ls : List (List Char))

theorem encodeLines_of_word {w : Word} (h : encodeLine l = .word w) :
    encodeLines k (l :: ls) = (w :: (encodeLines (k + 1) ls).1, (encodeLines (k + 1) ls).2) := by
  simp [encodeLines, h]

theorem encodeLines_of_diagnostic {r : Reason} (h : encodeLine l = .diagnostic r) :
    encodeLines k (l :: ls) = ((encodeLines (k + 1) ls).1, ⟨k, l, r⟩ :: (encodeLines (k + 1) ls).2) := by
  simp [encodeLines, h]

theorem encodeLines_of_nothing (h : encodeLine l = .nothing) : encodeLines k (l :: ls) = encodeLines (k + 1) ls := by
  simp [encodeLines, h]

end FirstLine

theorem encodeLines_append (k : Nat) (xs ys : List (List Char)) :
    encodeLines k (xs ++ ys) = ((encodeLines k xs).1 ++ (encodeLines (k + xs.length) ys).1,
      (encodeLines k xs).2 ++ (encodeLines (k + xs.length) ys).2) := by
  induction xs generalizing k with
  | nil => rfl
  | cons l ls ih =>
    have hnext : k + 1 + ls.length = k + (l :: ls).length := Nat.add_right_comm k 1 ls.length
    rw [List.cons_append]
    cases h : encodeLine l with
    | word w => simp [encodeLines_of_word _ _ h, ih, hnext]
    | diagnostic r => simp [encodeLines_of_diagnostic _ _ h, ih, hnext]
    | nothing => simp [encodeLines_of_nothing _ _ h, ih, hnext]

/-- A diagnostic of a text whose lines are numbered on by `j`. -/
def LineDiagnostic.renumber (j : Nat) (d : LineDiagnostic) : LineDiagnostic := { d with number := d.number + j }

theorem encodeLines_add (k j : Nat) (ls : List (List Char)) :
    encodeLines (k + j) ls = ((encodeLines k ls).1, (encodeLines k ls).2.map (LineDiagnostic.renumber j)) := by
  induction ls generalizing k with
  | nil => rfl
  | cons l ls ih =>
    have hnext := Nat.add_right_comm k j 1 ▸ ih (k + 1)
    cases h : encodeLine l with
    | word w => simp [encodeLines_of_word _ _ h, hnext]
    | diagnostic r => simp [encodeLines_of_diagnostic _ _ h, hnext, LineDiagnostic.renumber]
    | nothing => simp [encodeLines_of_nothing _ _ h, hnext]

/-- Settles O10: a line feed splits a text's lines, and the lines after the first text's are encoded as the second
text's are, numbered on. -/
theorem programIsEncodedLineByLine : Obligations.ProgramIsEncodedLineByLine := by
  refine ⟨fun text hfeed => ?single, fun a b => ?joined⟩
  case single =>
    have hlines : lines text = [text] := linesFrom_of_no_lineFeed hfeed
    rw [encodeProgram, hlines]
    exact ⟨rfl, fun _ => encodeLines_of_word 1 [], fun _ => encodeLines_of_diagnostic 1 [], encodeLines_of_nothing 1 []⟩
  case joined =>
    have hlines : lines (a ++ '\n' :: b) = lines a ++ lines b := linesFrom_append_lineFeed [] a b
    refine ⟨hlines, ?_⟩
    rw [encodeProgram, hlines, encodeLines_append, encodeLines_add]
    rfl

/-! ### Operands out of range (R92, R95, R96) -/

section NoForm

variable {t : Token} {m : Mnemonic} {ops : List Token} (hm : mnemonicOf t = some m) (hlen : ops.length ≤ maxOperands m)
  (hsel : selectForm m ops formRows = none)
include hm hlen hsel

theorem encodeTokens_missingArguments (haddr : addrFailure m ops = false) :
    encodeTokens (t :: ops) = .diagnostic .missingArguments := by
  simp [encodeTokens, encodeOperands, hm, Nat.not_lt.mpr hlen, hsel, haddr]

theorem encodeTokens_nnnMissing (haddr : addrFailure m ops = true) :
    encodeTokens (t :: ops) = .diagnostic .nnnMissing := by
  simp [encodeTokens, encodeOperands, hm, Nat.not_lt.mpr hlen, hsel, haddr]

end NoForm

section Oversized

variable {t : Token} {v : Nat} (h : hexOf t = some v)
include h

theorem fitsOf_eq_none_of_le {bits : Nat} (hv : 2 ^ bits ≤ v) : fitsOf bits t = none := by
  simp [fitsOf, h, Nat.not_lt.mpr hv]

/-- `V` is no hexadecimal digit, so a number is no register (R88). -/
theorem regOf_eq_none_of_hexOf : regOf t = none := by
  cases t with
  | nil => rfl
  | cons c cs =>
    refine regOf_cons_of_ne ?_ cs
    rintro rfl
    cases h

theorem ne_of_hexOf_eq_none {u : Token} (hu : hexOf u = none) : t ≠ u := by
  rintro rfl
  cases h.symm.trans hu

/-- After a register, only JP has a row for a number above 255 (`JP V0, nnn`): the second operand is no register, no
literal and no BYTE. -/
theorem selectForm_regToken_eq_none {m : Mnemonic} (hm : m ≠ .JP) (hv : 255 < v) (x : Nibble) :
    selectForm m [regToken x, t] formRows = none := by
  have hbyte : fitsOf 8 t = none := fitsOf_eq_none_of_le h hv
  have hreg : regOf t = none := regOf_eq_none_of_hexOf h
  have hDT : t ≠ ['D', 'T'] := ne_of_hexOf_eq_none h rfl
  have hK : t ≠ ['K'] := ne_of_hexOf_eq_none h rfl
  have hI : t ≠ ['[', 'I', ']'] := ne_of_hexOf_eq_none h rfl
  simp [formRows, selectForm, matchPats, matchPat, hm.symm, hbyte, hreg, hDT, hK, hI]

theorem selectForm_drw_eq_none (hv : 15 < v) (x y : Nibble) :
    selectForm .DRW [regToken x, regToken y, t] formRows = none := by
  have hnib : fitsOf 4 t = none := fitsOf_eq_none_of_le h hv
  simp [formRows, selectForm, matchPats, matchPat, hnib]

end Oversized

/-- Settles O12: no row of the form table takes the operands, and whether the failure is an address's is told by
`addrFailure`. -/
theorem oversizedOperandGivesADiagnostic : Obligations.OversizedOperandGivesADiagnostic := by
  intro x y t v h
  refine ⟨fun hv => ?byte, fun hv => ?nib, fun hv => ?addr⟩
  case byte =>
    have hsel {m : Mnemonic} (hm : m ≠ .JP) := selectForm_regToken_eq_none h hm hv x
    refine ⟨?_, ?_, ?_, ?_, ?_⟩
    all_goals exact encodeTokens_missingArguments rfl le_rfl (hsel (by decide)) rfl
  case nib => exact encodeTokens_missingArguments rfl le_rfl (selectForm_drw_eq_none h hv x y) rfl
  case addr =>
    have haddr : fitsOf 12 t = none := fitsOf_eq_none_of_le h hv
    have hreg : regOf t = none := regOf_eq_none_of_hexOf h
    have hnot : notAddr (some t) = true := by simp [notAddr, haddr]
    refine ⟨encodeTokens_nnnMissing (m := .JP) rfl (Nat.le_succ 1) ?_ hnot,
      encodeTokens_nnnMissing (m := .JP) rfl le_rfl ?_ hnot,
      encodeTokens_nnnMissing (m := .CALL) rfl le_rfl ?_ hnot,
      encodeTokens_nnnMissing (m := .LD) rfl le_rfl ?_ hnot⟩
    all_goals simp [formRows, selectForm, matchPats, matchPat, haddr, hreg]

/-! ### The source's lines (R106) -/

/-- Settles O11, by running the encoder's steps on the two lines. -/
theorem sourceLinesEncode : Obligations.SourceLinesEncode := by
  unfold Obligations.SourceLinesEncode
  decide

end Sys2Proof.TextEncoder
end

section
/-! PROOFS of O21, O22, O24 and O28: the steps that fetch nothing, the random byte, and that a step always answers.
The cases of a step (Laws/Step) say what each mode runs; what is left is the lowest pressed key, and that no instruction
but RND looks at the draw. -/

namespace Sys2Proof.Machine

open Sys2Proof

/-! ### The random byte (R34, R120) -/

/-- A step asks its execution only about the instruction it fetched (R113). -/
theorem cycle_congr {run run' : Instr → State → Result} {s : State} (h : run s.fetched s = run' s.fetched s) :
    cycle run s = cycle run' s := by
  simp only [cycle, h]

theorem exec_eq_execDraw (i : Instr) (s : State) : exec i s = execDraw (Config.randomByte s.draws) i s := by
  cases i <;> rfl

theorem execDraw_of_ne_rnd {i : Instr} (hi : ∀ x kk, i ≠ .rnd x kk) (draw : Byte) (s : State) :
    execDraw draw i s = exec i s := by
  cases i
  case rnd x kk => exact absurd rfl (hi x kk)
  all_goals rfl

/-- Settles O24: both claims are about the execution of the one fetched instruction. -/
theorem onlyRndUsesTheDraw : Obligations.OnlyRndUsesTheDraw := by
  intro s
  refine ⟨cycle_congr (exec_eq_execDraw s.fetched s), fun hrnd d e => cycle_congr ?_⟩
  rw [execDraw_of_ne_rnd hrnd, execDraw_of_ne_rnd hrnd]

/-! ### Every step answers (R120) -/

/-- Settles O28: under the invariant SP names a stack cell, so every instruction has a next state, whatever is drawn. -/
theorem stepIsTotal : Obligations.StepIsTotal := by
  rintro s ⟨hsp, _⟩
  exact ⟨cycle_next (exec_next hsp), fun draw => cycle_next (execDraw_next hsp draw)⟩

/-! ### What a step reports (R118) -/

/-- Only a step in Running reports. -/
theorem stepReport_of_ne_running {s : State} (h : s.mode ≠ .running) : stepReport s = none := by
  unfold stepReport
  cases hm : s.mode
  case running => exact absurd hm h
  all_goals rfl

/-- A step past the last address a fetch can have reports nothing. -/
theorem stepReport_of_lt_pc {s : State} (hpc : 0xFFE < s.pc.toNat) : stepReport s = none := by
  have hfetch : ¬s.canFetch = true := fun h => Nat.not_le.2 hpc (s.canFetch_iff.1 h)
  unfold stepReport
  cases s.mode
  case running => exact if_neg hfetch
  all_goals rfl

/-- Settles O21: past 0xFFE the step is the fault FetchBounds, in Faulted it is nothing. -/
theorem stepsThatDoNotFetch : Obligations.StepsThatDoNotFetch := by
  refine ⟨fun s hm hpc => ?past, fun s hm => ⟨cycle_faulted hm, stepReport_of_ne_running (by simp [hm])⟩⟩
  exact ⟨_, cycle_fetchBounds hm hpc, rfl, rfl, sameOutside_setMode_setFault _ _ _, stepReport_of_lt_pc hpc⟩

/-! ### The key wait (R112) -/

theorem State.keyScan_of_no_key {s : State} (h : ∀ k, s.getKey k = false) : s.keyScan = s := by
  rcases s.keyScan_cases with ⟨hkeep, _⟩ | ⟨k, _, hdown, _⟩
  · exact hkeep
  · exact absurd hdown (by simp [h])

/-- The lowest pressed key is the one the scan takes: the scan's own key is neither below it nor above it. -/
theorem State.keyScan_of_lowest {s : State} {k : Nibble} (hdown : s.getKey k = true)
    (hlow : ∀ j : Nibble, j.toNat < k.toNat → s.getKey j = false) :
    s.keyScan = (s.setV s.kwreg (BitVec.ofNat 8 k.toNat)).setMode .running := by
  rcases s.keyScan_cases with ⟨_, hnone⟩ | ⟨n, hn, hdown', hlow', hscan⟩
  · exact absurd hdown (by simp [hnone])
  · have hnk : ¬n < k.toNat := fun hlt => by
      have := hlow (BitVec.ofNat 4 n) (by rwa [BitVec.toNat_ofNat, Nat.mod_eq_of_lt hn])
      simp [hdown'] at this
    have hkn : ¬k.toNat < n := fun hlt => by
      have := hlow' k.toNat hlt
      simp [hdown] at this
    rw [hscan, show n = k.toNat by omega]

theorem sameOutside_setV_setMode (s : State) (x : Nibble) (b : Byte) (m : Mode) :
    sameOutside [.v, .mode] s ((s.setV x b).setMode m) := by
  intro p hp
  cases p
  case v | mode => simp at hp
  case mem => exact fun _ => rfl
  all_goals exact rfl

/-- Settles O22: the step is the key scan, which takes the lowest pressed key. -/
theorem keyWaitTakesTheLowestKey : Obligations.KeyWaitTakesTheLowestKey := by
  intro s hm
  have hstep : step s = .next s.keyScan := cycle_awaitingKey hm
  refine ⟨stepReport_of_ne_running (by simp [hm]), fun hnone => ?nokey, fun k hdown hlow => ?key⟩
  case nokey => rw [hstep, State.keyScan_of_no_key hnone]
  case key =>
    rw [State.keyScan_of_lowest hdown hlow] at hstep
    refine ⟨_, hstep, rfl, ?value, (sameVOutside_self _ s).setV (by simp) _, sameOutside_setV_setMode _ _ _ _⟩
    rw [State.getV_setMode, State.getV_setV, if_pos rfl, BitVec.toNat_ofNat]
    exact Nat.mod_eq_of_lt (Nat.lt_trans k.isLt (by decide))

end Sys2Proof.Machine
end

section
/-! PROOFS of O37, O39, O40, O36 and O41 to O43: control transfer. RET, CALL and the skips each get the next state they
answer, an update of PC, SP and the stack cells alone. The faults of RET and CALL are read off O31, and a CALL followed
by RET off what each of the two does. -/

namespace Sys2Proof.Machine

open Sys2Proof

/-! ### What an update of PC, SP and the stack leaves alone -/

section Frames

variable {ps : List Part} {s t u : State}

/-- An update of PC, SP and the stack cells writes those of the three that differ after it. -/
theorem sameOutside_control {a : Word} {k : Byte} {cells : Vector Word Config.stackSlots}
    (hpc : a = s.pc ∨ .pc ∈ ps) (hsp : k = s.sp ∨ .sp ∈ ps) (hstack : cells = s.stack ∨ .stack ∈ ps) :
    sameOutside ps s { s with pc := a, sp := k, stack := cells } := by
  intro p hp
  cases p
  case pc => exact hpc.resolve_right hp
  case sp => exact hsp.resolve_right hp
  case stack => exact hstack.resolve_right hp
  case v | mem => exact fun _ => rfl
  all_goals exact rfl

theorem sameOn.trans {p : Part} (h : sameOn s t p) (h' : sameOn t u p) : sameOn s u p := by
  cases p
  case v | mem => exact fun x => (h' x).trans (h x)
  all_goals exact Eq.trans h' h

theorem sameOutside.trans {qs : List Part} (h : sameOutside ps s t) (h' : sameOutside qs t u) :
    sameOutside (ps ++ qs) s u := by
  intro p hp
  obtain ⟨hps, hqs⟩ := not_or.1 (mt List.mem_append.2 hp)
  exact (h p hps).trans (h' p hqs)

/-- A piece that was restored leaves the frame's list. -/
theorem sameOutside.of_restored {qs : List Part} (h : sameOutside ps s t)
    (hback : ∀ p ∈ ps, p ∉ qs → sameOn s t p) : sameOutside qs s t := by
  intro p hq
  by_cases hp : p ∈ ps
  · exact hback p hp hq
  · exact h p hp

end Frames

theorem sameOutside_setPc (s : State) (a : Word) : sameOutside [.pc] s (s.setPc a) :=
  sameOutside_control (.inr (by simp)) (.inl rfl) (.inl rfl)

/-! ### The faults of RET and CALL (R127, R129) -/

/-- The answer of an instruction whose fault is known (R197). -/
theorem exec_of_faultOf {i : Instr} {s : State} {c : FaultCause} (h : faultOf i s = c) (hc : c ≠ .none) :
    ∃ t, exec i s = .next t ∧ t.mode = .faulted ∧ t.fault = ⟨c, s.pc, encode i⟩ ∧ sameOutside [.mode, .fault] s t := by
  subst h
  exact (instructionsFaultExactlyWhen i s).1 hc

/-! ### Jumps and no-ops (R126, R128, R131) -/

theorem toNat_setWidth_addr (nnn : Addr) : (nnn.setWidth 16).toNat = nnn.toNat :=
  BitVec.toNat_setWidth_of_le (by decide)

/-- Settles O37: a SYS word is the word of a well-formed SYS instruction, which only advances PC. -/
theorem sysIsAReportingNoOp : Obligations.SysIsAReportingNoOp :=
  ⟨by decide, fun nnn s hwf => ⟨decode_encode (i := .sys nnn) hwf, _, rfl, rfl, sameOutside_setPc s _, rfl⟩⟩

/-- The 12-bit sum of an address and a byte. -/
theorem toNat_addr_add_byte (nnn : Addr) (b : Byte) :
    (nnn + b.setWidth 12).toNat = (nnn.toNat + b.toNat) % 4096 := by
  rw [BitVec.toNat_add, BitVec.toNat_setWidth_of_le (by decide)]

/-- Settles O41: the sum is taken in 12 bits, and only PC is written. -/
theorem jumpWithOffsetWraps : Obligations.JumpWithOffsetWraps := fun nnn s =>
  ⟨decode_encode (i := .jpV0 nnn) rfl, _, rfl, (toNat_setWidth_addr _).trans (toNat_addr_add_byte nnn _),
    sameOutside_setPc s _⟩

/-! ### RET (R127) -/

section Ret

variable {s : State} (x : Nibble) (hsp : 1 ≤ s.sp.toNat)
include hsp

theorem State.sp_ne_zero : s.sp ≠ 0 := fun h => by simp [h] at hsp

theorem exec_ret_of_stackTop_eq_some {a : Word} (htop : s.stackTop = some a) :
    exec (.ret x) s = .next ((s.setPc a).setSp (s.sp - 1)) := by
  show execRet x s = _
  rw [execRet, if_neg (State.sp_ne_zero hsp), htop]
  rfl

theorem exec_ret_of_stackTop_eq_none (htop : s.stackTop = none) : exec (.ret x) s = .fault .noStackCell := by
  show execRet x s = _
  rw [execRet, if_neg (State.sp_ne_zero hsp), htop]

end Ret

/-- Settles O39: SP = 0 is the fault of R196; above it, RET answers by whether SP names a cell. -/
theorem retPopsTheStack : Obligations.RetPopsTheStack := by
  refine fun x s => ⟨fun hcell hsp => ?pops, fun hsp => ?empty, fun hsp => ?stops⟩
  case pops =>
    have htop : s.stackTop = some s.stack[s.sp.toNat] := Vector.getElem?_eq_getElem hcell
    have hdown : (s.sp - 1).toNat = s.sp.toNat - 1 := by bv_omega
    exact ⟨_, exec_ret_of_stackTop_eq_some x hsp htop, rfl, hdown,
      sameOutside_control (.inr (by simp)) (.inr (by simp)) (.inl rfl)⟩
  case empty => exact exec_of_faultOf (if_pos hsp) (by decide)
  case stops =>
    have htop : s.stackTop = none := Vector.getElem?_eq_none_iff.2 hsp
    exact exec_ret_of_stackTop_eq_none x (by omega) htop

/-! ### JP and CALL (R128, R129) -/

theorem exec_call_of_lt {s : State} (hsp : s.sp.toNat < 15) (nnn : Addr) :
    exec (.call nnn) s = .next ((s.push (s.pc + 2)).setPc (nnn.setWidth 16)) :=
  if_neg (by simpa [Config.stackSlots] using hsp)

/-- Settles O40: below 15, CALL answers the push; from 15 up it is the fault of R196. -/
theorem jumpAndCallSetPc : Obligations.JumpAndCallSetPc := by
  refine fun nnn s => ⟨?jp, fun hsp => ?call, fun hsp => ?overflow⟩
  case jp => exact ⟨_, rfl, toNat_setWidth_addr nnn, sameOutside_setPc s _⟩
  case call =>
    have hup : (s.sp + 1).toNat = s.sp.toNat + 1 := by bv_omega
    have hin : s.sp.toNat + 1 < Config.stackSlots := Nat.succ_lt_succ hsp
    refine ⟨_, exec_call_of_lt hsp nnn, toNat_setWidth_addr nnn, hup, ?cell, fun k hk => ?others, ?frame⟩
    case cell =>
      rw [State.setPc_stack, State.push_stack, hup]
      exact Vector.getElem?_setIfInBounds_self_of_lt hin
    case others =>
      rw [State.setPc_stack, State.push_stack, hup]
      exact Vector.getElem?_setIfInBounds_ne (Ne.symm hk)
    case frame => exact sameOutside_control (.inr (by simp)) (.inr (by simp)) (.inr (by simp))
  case overflow => exact exec_of_faultOf (if_pos hsp) (by decide)

/-- Settles O36: CALL leaves SP at the cell it pushed to, and RET pops that cell. -/
theorem callThenRetComesBack : Obligations.CallThenRetComesBack := by
  intro nnn x s hsp
  obtain ⟨-, hpush, -⟩ := jumpAndCallSetPc nnn s
  obtain ⟨t, hcall, -, htsp, hcell, -, hframe⟩ := hpush hsp
  obtain ⟨hpop, -, -⟩ := retPopsTheStack x t
  obtain ⟨u, hret, hupc, husp, hframe'⟩ := hpop (by omega) (by omega)
  have hback : u.sp = s.sp := BitVec.eq_of_toNat_eq (by omega)
  have hpc : u.pc = s.pc + 2 := by
    rw [hupc, ← Option.some_inj, ← hcell, ← htsp]
    exact (Vector.getElem?_eq_getElem _).symm
  have honly : ∀ p ∈ [.pc, .sp, .stack] ++ [.pc, .sp], p ∉ [.pc, .stack] → p = Part.sp := by decide
  refine ⟨t, u, hcall, hret, hpc, hback, (hframe.trans hframe').of_restored fun p hp hq => ?_⟩
  obtain rfl := honly p hp hq
  exact hback

/-! ### Skips (R115, R132 to R135, R180, R181) -/

/-- A skip on the test `c` of the condition `p` moves PC past the next instruction where `p` holds, and to it where
not. -/
theorem exec_skip {i : Instr} {s : State} {c : Bool} {p : Prop} [Decidable p]
    (hexec : exec i s = .next (s.advance.skipIf c)) (hc : c = true ↔ p) :
    ∃ t, exec i s = .next t ∧ t.pc = s.pc + (if p then 4 else 2) ∧ sameOutside [.pc] s t := by
  rw [State.skipIf_eq] at hexec
  refine ⟨_, hexec, ?_, sameOutside_setPc s _⟩
  by_cases hp : p
  · rw [if_pos hp, hc.2 hp]
    exact BitVec.add_assoc s.pc 2 2
  · rw [if_neg hp, Bool.eq_false_iff.2 fun h => hp (hc.1 h)]
    rfl

/-- Settles O42: the two comparisons of a register with kk. -/
theorem immediateSkips : Obligations.ImmediateSkips := fun x kk _ =>
  ⟨decode_encode (i := .seImm x kk) rfl, decode_encode (i := .sneImm x kk) rfl, exec_skip rfl beq_iff_eq,
    exec_skip rfl bne_iff_ne⟩

/-- Settles O43: the two comparisons of registers, and the two states of a key. -/
theorem registerAndKeySkips : Obligations.RegisterAndKeySkips := fun _ _ _ _ =>
  ⟨exec_skip rfl beq_iff_eq, exec_skip rfl bne_iff_ne, exec_skip rfl Iff.rfl, exec_skip rfl (Bool.not_eq_true' _).to_iff⟩

end Sys2Proof.Machine
end

section
/-! PROOFS of O44 to O52: load, arithmetic, logic, shift, random. Each instruction answers a chain of updates of V
registers after the advance, so its frame is that of the advance and of the registers it names (O33); what a register
holds at the end is read back through the chain in the order the updates were made, which decides the cases where x or
y is F (decision D6). The rest is a fact about one or two bytes. -/

namespace Sys2Proof.Machine

open Sys2Proof

/-! ### What these instructions leave alone -/

/-- The advance with V registers written leaves every other piece alone, and the count of draws where that was not
moved. -/
theorem sameOutside_advance_v {ps : List Part} (s : State) {v : Vector Byte Config.nReg} {k : Nat} (hv : .v ∈ ps)
    (hpc : .pc ∈ ps) (hk : k = s.draws ∨ .draws ∈ ps) : sameOutside ps s { s.advance with v := v, draws := k } := by
  intro p hp
  cases p
  case v => exact absurd hv hp
  case pc => exact absurd hpc hp
  case draws => exact hk.resolve_right hp
  case mem => exact fun _ => rfl
  all_goals exact rfl

/-- The frame of an instruction whose answer differs from the advance in V registers alone: those it names (O33). -/
theorem exec_frame {i : Instr} {s t : State} (hexec : exec i s = .next t) (ht : t = { s.advance with v := t.v }) :
    t.pc = s.pc + 2 ∧ sameVOutside (vWritten i) s t ∧ sameOutside [.v, .pc] s t :=
  ⟨by rw [ht]; rfl, onlyDestinationsAndTheFlagAreWritten i s t hexec,
    ht ▸ sameOutside_advance_v s (by simp) (by simp) (.inl rfl)⟩

/-! ### One destination and no flag (R141 to R146) -/

theorem State.getV_setV_self (s : State) (x : Nibble) (b : Byte) : (s.setV x b).getV x = b := by
  rw [State.getV_setV, if_pos rfl]

/-- An instruction that writes `b` to Vx after the advance. -/
theorem exec_setV {i : Instr} {s : State} {x : Nibble} {b : Byte} (hexec : exec i s = .next (s.advance.setV x b)) :
    ∃ t, exec i s = .next t ∧ t.getV x = b ∧ t.pc = s.pc + 2 ∧ sameVOutside [x] s t ∧ sameOutside [.v, .pc] s t :=
  ⟨_, hexec, State.getV_setV_self _ x b, rfl, (sameVOutside_self _ s).setV (by simp) b,
    sameOutside_advance_v s (by simp) (by simp) (.inl rfl)⟩

/-- Settles O44: each writes Vx alone, and the sum of two bytes is taken in eight bits. -/
theorem immediateLoadAndAdd : Obligations.ImmediateLoadAndAdd := by
  intro x kk s
  refine ⟨decode_encode (i := .ldImm x kk) rfl, decode_encode (i := .addImm x kk) rfl, exec_setV rfl, ?add⟩
  obtain ⟨t, hexec, hx, hframe⟩ := exec_setV (i := .addImm x kk) (s := s) rfl
  exact ⟨t, hexec, by rw [hx, BitVec.toNat_add], hframe⟩

/-- Settles O45: the register written is Vy. -/
theorem registerLoadWritesVy : Obligations.RegisterLoadWritesVy := fun x y _ =>
  ⟨decode_encode (i := .ldReg x y) rfl, exec_setV rfl⟩

/-- Settles O46: each writes Vx alone. -/
theorem logicWritesVx : Obligations.LogicWritesVx := fun _ _ _ => ⟨exec_setV rfl, exec_setV rfl, exec_setV rfl⟩

/-! ### ADD and SUB (R147, R148) -/

/-- A flag that tests a condition. -/
theorem flagByte_decide (p : Prop) [Decidable p] : flagByte (decide p) = if p then 1 else 0 := by
  simp [flagByte]

/-- Settles O47: VF is written before Vx, so it keeps the carry unless x is F. -/
theorem addSetsCarry : Obligations.AddSetsCarry := by
  intro x y s
  refine ⟨_, rfl, ?sum, fun hx => ?carry, exec_frame (i := .addReg x y) rfl rfl⟩
  case sum => rw [State.getV_setV_self, BitVec.toNat_ofNat, exactSum]
  case carry =>
    rw [State.getV_setV, if_neg (Ne.symm hx), State.getV_setFlag, if_pos rfl]
    exact flagByte_decide _

/-- The wrapped-difference test of SUB (R148): a difference of bytes exceeds what it was taken from exactly when it
wrapped. -/
theorem borrowFlag_sub (a b : Byte) : borrowFlag a (a - b) = decide (a.toNat < b.toNat) :=
  decide_eq_decide.2 (by bv_omega)

/-- Settles O48: VF is written last, and holds the flag for every x. -/
theorem subSetsBorrow : Obligations.SubSetsBorrow := by
  intro x y s
  refine ⟨_, rfl, fun hx => ?difference, ?borrow, exec_frame (i := .subReg x y) rfl rfl⟩
  case difference =>
    rw [State.getV_setFlag, if_neg hx, State.getV_setV_self]
    bv_omega
  case borrow =>
    rw [State.getV_setFlag, if_pos rfl, State.getV_setV_self, borrowFlag_sub, flagByte_decide]

/-! ### SHR and SHL (R149, R151) -/

theorem toNat_ushiftRight_one (a : Byte) : (a >>> 1).toNat = a.toNat / 2 := by
  rw [BitVec.toNat_ushiftRight, Nat.shiftRight_eq_div_pow, pow_one]

theorem toNat_lowBit (a : Byte) : (lowBit a).toNat = a.toNat % 2 := by
  rw [lowBit, BitVec.toNat_and]
  exact Nat.and_one_is_mod _

theorem toNat_highBit (a : Byte) : (highBit a).toNat = a.toNat / 128 := by
  have htop : a.toNat / 128 < 2 := by omega
  calc (highBit a).toNat = (a >>> 7).toNat % 2 := toNat_lowBit (a >>> 7)
    _ = a.toNat / 128 % 2 := by rw [BitVec.toNat_ushiftRight, Nat.shiftRight_eq_div_pow]
    _ = a.toNat / 128 := Nat.mod_eq_of_lt htop

/-- A single bit has nothing left of it after a shift to the right. -/
theorem lowBit_ushiftRight_one (a : Byte) : lowBit a >>> 1 = 0 := by
  apply BitVec.eq_of_toNat_eq
  rw [toNat_ushiftRight_one, toNat_lowBit]
  exact Nat.div_eq_of_lt (Nat.mod_lt _ (by decide))

theorem toNat_mul_two (a : Byte) : (a * 2).toNat = 2 * a.toNat % 256 := by
  rw [BitVec.toNat_mul, Nat.mul_comm]
  rfl

/-- Settles O49: Vy is shifted after VF was written, so with y = F what is shifted is the single bit. -/
theorem shrShiftsVy : Obligations.ShrShiftsVy := by
  intro x y s
  refine ⟨_, rfl, fun hy => ?shifted, fun hy hx => ?flag, fun hy => ?vf, exec_frame (i := .shrReg x y) rfl rfl⟩
  case shifted =>
    simp only [State.getV_setV, State.getV_advance, if_neg hy, ite_self, if_true, toNat_ushiftRight_one, and_self]
  case flag => simp only [State.getV_setV, if_neg (Ne.symm hx), if_neg (Ne.symm hy), if_true, toNat_lowBit]
  case vf => simp only [State.getV_setV, hy, if_true, ite_self, lowBit_ushiftRight_one, and_self]

/-- Settles O51: VF is written before Vx is read again, so with x = F what is doubled is the single bit. -/
theorem shlShiftsVx : Obligations.ShlShiftsVx := by
  intro x y s
  refine ⟨_, rfl, fun hx => ?doubled, fun hx => ?vf, exec_frame (i := .shlReg x y) rfl rfl⟩
  case doubled =>
    simp only [State.getV_setV, if_neg hx, if_neg (Ne.symm hx), if_true, State.getV_advance, toNat_mul_two,
      toNat_highBit, and_self]
  case vf =>
    subst hx
    have hbit : 2 * ((s.getV 15).toNat / 128) < 256 := by omega
    rw [State.getV_setV_self, State.getV_setV_self, toNat_mul_two, toNat_highBit, Nat.mod_eq_of_lt hbit]

/-! ### SUBN (R150) -/

/-- Settles O50: VF is written before either operand is read again. -/
theorem subnSetsGreater : Obligations.SubnSetsGreater := by
  intro x y s
  refine ⟨_, flagByte (greaterFlag (s.getV y) (s.getV x)), rfl, flagByte_decide _, fun hx hy => ?neither,
    fun hx hy => ?xIsF, fun hx hy => ?yIsF, fun hx hy => ?both, exec_frame (i := .subnReg x y) rfl rfl⟩
  case neither =>
    simp only [State.getV_setV, State.getV_setFlag, State.getV_advance, if_neg hx, if_neg hy, if_neg (Ne.symm hx),
      if_true, and_self]
  case xIsF => simp only [State.getV_setV, State.getV_setFlag, State.getV_advance, if_neg hy, hx, if_true]
  case yIsF =>
    simp only [State.getV_setV, State.getV_setFlag, State.getV_advance, if_neg hx, if_neg (Ne.symm hx), hy, if_true,
      and_self]
  case both =>
    simp only [State.getV_setV, State.getV_setFlag, hx, hy, if_true]
    exact BitVec.sub_self _

/-! ### RND (R153) -/

/-- RND with its draw given: Vx alone is written, and the draw counted. -/
theorem rndWith_next (draw : Byte) (x : Nibble) (kk : Byte) (s : State) :
    ∃ t, rndWith draw x kk s = .next t ∧ t.getV x = draw &&& kk ∧ t.draws = s.draws + 1 ∧ t.pc = s.pc + 2 ∧
      sameVOutside [x] s t ∧ sameOutside [.v, .pc, .draws] s t :=
  ⟨_, rfl, State.getV_setV_self _ x _, rfl, rfl, (sameVOutside_self _ s).setV (by simp) _,
    sameOutside_advance_v s (by simp) (by simp) (.inr (by simp))⟩

/-- Settles O52: both clauses are about `rndWith`, whatever the draw. -/
theorem rndMasksTheDraw : Obligations.RndMasksTheDraw := by
  refine fun x kk s => ⟨?free, fun draw => ?given⟩
  case free =>
    obtain ⟨t, hexec, hx, hdraws, hpc, hframe⟩ := rndWith_next (Config.randomByte s.draws) x kk s
    refine ⟨t, hexec, hx, fun b hb => ?_, hdraws, hpc, hframe⟩
    rw [hx, BitVec.getLsbD_and, hb, Bool.and_false]
  case given =>
    obtain ⟨t, hexec, hx, -, hpc, hframe⟩ := rndWith_next draw x kk s
    exact ⟨t, hexec, hx, hpc, hframe⟩

end Sys2Proof.Machine
end

section
/-! PROOFS of O54, O55, O56 and O53: the index register and the memory blocks. What LD B,Vx and LD [I],Vx leave in
memory was said byte by byte as `byteAfter` for O35, and is read off it here; LD Vx,[I] gets its own reading, register
by register. The three writers of I differ only in the address they give. -/

namespace Sys2Proof.Machine

open Sys2Proof

/-! ### What an update of I or of memory leaves alone -/

/-- The advance with I and memory written leaves every other piece alone, and either of the two where it was not
changed. -/
theorem sameOutside_advance_i_mem {ps : List Part} (s : State) {a : Addr} {m : Memory} (hpc : .pc ∈ ps)
    (hi : a = s.i ∨ .i ∈ ps) (hmem : m = s.mem ∨ .mem ∈ ps) :
    sameOutside ps s { s.advance with i := a, mem := m } := by
  intro p hp
  cases p
  case pc => exact absurd hpc hp
  case i => exact hi.resolve_right hp
  case mem => exact fun c => congrArg (Memory.read · c) (hmem.resolve_right hp)
  case v => exact fun _ => rfl
  all_goals exact rfl

/-! ### Stores from I on (R164, R165) -/

/-- LD [I],Vx or LD B,Vx that does not fault: every byte of memory after it, and its frame (R44, R47). -/
theorem exec_store_frame {i : Instr} {x : Nibble} {s : State} (hi : i = .storeRegs x ∨ i = .ldB x)
    (hnone : faultOf i s = .none) :
    ∃ t, exec i s = .next t ∧ (∀ a, Memory.read t.mem a = byteAfter i s a) ∧
      t.pc = s.pc + 2 ∧ sameOutside [.mem, .pc] s t := by
  obtain ⟨bs, hexec, hread⟩ := exec_store hi hnone
  exact ⟨_, hexec, hread, rfl, sameOutside_advance_i_mem s (by simp) (.inl rfl) (.inr (by simp))⟩

/-- Settles O54: the three digits are below 256, so each survives as a byte. -/
theorem bcdStoresThreeDigits : Obligations.BcdStoresThreeDigits := by
  intro x s hin
  obtain ⟨t, hexec, hread, hframe⟩ := exec_store_frame (i := .ldB x) (.inr rfl) (if_neg (Nat.not_lt.2 hin))
  have hv : (s.getV x).toNat < 256 := (s.getV x).isLt
  refine ⟨t, hexec, ?hundreds, ?tens, ?ones, fun a ha => ?others, hframe⟩
  case hundreds =>
    rw [hread, byteAfter, if_pos rfl]
    exact Nat.mod_eq_of_lt (by omega)
  case tens =>
    rw [hread, byteAfter, if_neg (by omega), if_pos rfl]
    exact Nat.mod_eq_of_lt (by omega)
  case ones =>
    rw [hread, byteAfter, if_neg (by omega), if_neg (by omega), if_pos rfl]
    exact Nat.mod_eq_of_lt (by omega)
  case others => rw [hread, byteAfter, if_neg (by omega), if_neg (by omega), if_neg (by omega)]

/-- Settles O55: the byte at I + k is that of the register whose number is the distance from I. -/
theorem storeRegistersAtI : Obligations.StoreRegistersAtI := by
  intro x s hin
  obtain ⟨t, hexec, hread, hframe⟩ := exec_store_frame (i := .storeRegs x) (.inl rfl) (if_neg (Nat.not_lt.2 hin))
  refine ⟨t, hexec, fun k hk => ?stored, fun a ha => ?others, hframe⟩
  case stored =>
    have hblock : s.i.toNat ≤ s.i.toNat + k.toNat ∧ s.i.toNat + k.toNat ≤ s.i.toNat + x.toNat := by omega
    rw [hread, byteAfter, if_pos hblock, Nat.add_sub_cancel_left, BitVec.ofNat_toNat, BitVec.setWidth_eq]
  case others => rw [hread, byteAfter, if_neg (by omega)]

/-! ### Loads from I on (R166) -/

theorem exec_loadRegs_of_le {x : Nibble} {s : State} (hin : s.i.toNat + x.toNat ≤ 0xFFF) :
    exec (.loadRegs x) s = .next (s.advance.loadV (s.bytesAtI (x.toNat + 1))) :=
  if_pos ((s.inMem_iff_not_lt x.toNat).2 (Nat.not_lt.2 hin))

/-- LD Vx,[I] loads register k from I + k, up to Vx. -/
theorem State.getV_loadV_bytesAtI (x : Nibble) (s : State) (k : Nibble) :
    (s.advance.loadV (s.bytesAtI (x.toNat + 1))).getV k =
      if k.toNat ≤ x.toNat then Memory.read s.mem (s.i.toNat + k.toNat) else s.getV k := by
  have hlen : (s.bytesAtI (x.toNat + 1)).length = x.toNat + 1 := s.bytesAtI_length _
  rw [State.getV_loadV _ _ (hlen.trans_le x.isLt), State.getV_advance]
  by_cases hk : k.toNat ≤ x.toNat
  · rw [if_pos hk, dif_pos (by omega), State.bytesAtI_getElem]
  · rw [if_neg hk, dif_neg (by omega)]

/-- Settles O56: only V registers are written, and each is read back by its number. -/
theorem loadRegistersFromI : Obligations.LoadRegistersFromI := by
  intro x s hin
  have hexec := exec_loadRegs_of_le hin
  have hregs : s.advance.loadV (s.bytesAtI (x.toNat + 1)) =
      { s.advance with v := (s.advance.loadV (s.bytesAtI (x.toNat + 1))).v } := by
    obtain ⟨v, hv⟩ := State.loadV_eq s.advance (s.bytesAtI (x.toNat + 1))
    rw [hv]
  obtain ⟨hpc, -, hframe⟩ := exec_frame hexec hregs
  refine ⟨_, hexec, fun k hk => ?loaded, fun k hk => ?kept, hpc, hframe⟩
  case loaded => rw [State.getV_loadV_bytesAtI, if_pos hk]
  case kept => rw [State.getV_loadV_bytesAtI, if_neg (Nat.not_le.2 hk)]

/-! ### Writes of I (R161 to R163) -/

/-- An instruction that writes `a` to I after the advance. -/
theorem exec_setI {i : Instr} {s : State} {a : Addr} (hexec : exec i s = .next (s.advance.setI a)) :
    ∃ t, exec i s = .next t ∧ t.i = a ∧ t.pc = s.pc + 2 ∧ sameOutside [.i, .pc] s t :=
  ⟨_, hexec, rfl, rfl, sameOutside_advance_i_mem s (by simp) (.inr (by simp)) (.inl rfl)⟩

/-- Five times a byte fits in 12 bits. -/
theorem toNat_byte_mul_five (b : Byte) : (b.setWidth 12 * 5 : Addr).toNat = 5 * b.toNat := by
  have hfits : b.toNat * 5 < 4096 := by omega
  rw [BitVec.toNat_mul, BitVec.toNat_setWidth_of_le (by decide), Nat.mul_comm 5]
  exact Nat.mod_eq_of_lt hfits

/-- Settles O53: the sum is taken in 12 bits, and the product needs no more. -/
theorem indexArithmetic : Obligations.IndexArithmetic := by
  refine fun x nnn s => ⟨exec_setI rfl, ?add, ?font⟩
  case add =>
    obtain ⟨t, hexec, hi, hframe⟩ := exec_setI (i := .addI x) (s := s) rfl
    exact ⟨t, hexec, by rw [hi, toNat_addr_add_byte], hframe⟩
  case font =>
    obtain ⟨t, hexec, hi, hframe⟩ := exec_setI (i := .ldF x) (s := s) rfl
    exact ⟨t, hexec, by rw [hi, toNat_byte_mul_five], hframe⟩

end Sys2Proof.Machine
end

section
/-! PROOFS of O16, O57 and O58: the display. The export is two lists of equally long pieces, one inside the other, so
a byte of it is found by its row, its column and its place in the pixel. CLS and DRW share a frame; what DRW does to
the pixels and to the collision flag is `drawRows_spec`, read here at the sprite's bytes in memory. -/

namespace Sys2Proof.Machine

open Sys2Proof

/-! ### Lists of equally long pieces -/

section Pieces

variable {α β : Type} {f : α → List β} {k : Nat} (hf : ∀ a, (f a).length = k)

include hf

theorem length_flatMap_of_length_eq (l : List α) : (l.flatMap f).length = k * l.length := by
  simp [List.length_flatMap, hf, Nat.mul_comm]

/-- Element `k * i + j` is element `j` of piece `i`. -/
theorem getElem?_flatMap_of_length_eq {i j : Nat} (hj : j < k) (l : List α) (hi : i < l.length) :
    (l.flatMap f)[k * i + j]? = (f l[i])[j]? := by
  induction l generalizing i with
  | nil => exact absurd hi (Nat.not_lt_zero i)
  | cons a l ih =>
    rw [List.flatMap_cons]
    cases i with
    | zero => rw [Nat.mul_zero, Nat.zero_add, List.getElem?_append_left ((hf a).symm ▸ hj)]; rfl
    | succ i =>
      have hskip : k * (i + 1) + j - (f a).length = k * i + j := by rw [hf, Nat.mul_succ]; omega
      rw [List.getElem?_append_right (by rw [hf, Nat.mul_succ]; omega), hskip, ih (Nat.lt_of_succ_lt_succ hi)]
      rfl

end Pieces

/-! ### The screen export (R175) -/

theorem length_rgbaBytes (c : Rgb) : (rgbaBytes c).length = 4 := rfl

theorem length_rgbaRow (on off : Rgb) (row : Vector Bool Config.dispW) :
    (row.toList.flatMap fun p => rgbaBytes (if p then on else off)).length = 256 := by
  rw [length_flatMap_of_length_eq fun _ => length_rgbaBytes _, Vector.length_toList]
  rfl

theorem length_rgbaExport (on off : Rgb) (d : Display) : (rgbaExport on off d).length = 8192 := by
  rw [rgbaExport, length_flatMap_of_length_eq (length_rgbaRow on off), Vector.length_toList]
  rfl

/-- Byte `j` of pixel (x, y) of the export. -/
theorem getElem?_rgbaExport (on off : Rgb) (d : Display) {x y j : Nat} (hx : x < 64) (hy : y < 32) (hj : j < 4) :
    (rgbaExport on off d)[4 * (64 * y + x) + j]? = (rgbaBytes (if Display.pixel d x y then on else off))[j]? := by
  have hindex : 4 * (64 * y + x) + j = 256 * y + (4 * x + j) := by omega
  have hpixel : Display.pixel d x y = d[y][x] := by
    simp only [Display.pixel, Nat.mod_eq_of_lt hx, Nat.mod_eq_of_lt hy]
  rw [hindex, rgbaExport, getElem?_flatMap_of_length_eq (length_rgbaRow on off) (by omega) _ (by simpa using hy),
    getElem?_flatMap_of_length_eq (fun _ => length_rgbaBytes _) hj _ (by simpa using hx), hpixel]
  rfl

/-- Settles O16: the four bytes of a pixel are the pieces of its row of 64. -/
theorem exportIsRowMajorRgba : Obligations.ExportIsRowMajorRgba := by
  intro on off d
  refine ⟨length_rgbaExport on off d, fun x y hx hy => ⟨_, rfl, ?r, ?g, ?b, ?a⟩⟩
  case r => exact getElem?_rgbaExport on off d hx hy (j := 0) (by decide)
  case g => exact getElem?_rgbaExport on off d hx hy (j := 1) (by decide)
  case b => exact getElem?_rgbaExport on off d hx hy (j := 2) (by decide)
  case a => exact getElem?_rgbaExport on off d hx hy (j := 3) (by decide)

/-! ### CLS (R171) -/

/-- The advance with the display and V registers written leaves every other piece alone, the V registers too where
they were not changed. -/
theorem sameOutside_advance_disp_v {ps : List Part} (s : State) {d : Display} {v : Vector Byte Config.nReg}
    (hpc : .pc ∈ ps) (hdisp : .disp ∈ ps) (hv : v = s.v ∨ .v ∈ ps) :
    sameOutside ps s { s.advance with disp := d, v := v } := by
  intro p hp
  cases p
  case pc => exact absurd hpc hp
  case disp => exact absurd hdisp hp
  case v =>
    obtain rfl := hv.resolve_right hp
    exact fun _ => rfl
  case mem => exact fun _ => rfl
  all_goals exact rfl

/-- Settles O57: the field x is read by nothing. -/
theorem clsClearsTheDisplay : Obligations.ClsClearsTheDisplay := fun _ s =>
  ⟨_, rfl, Display.pixel_clear, rfl, sameOutside_advance_disp_v s (by simp) (by simp) (.inl rfl)⟩

/-! ### DRW (R172 to R174) -/

/-- The display and the collision flag that DRW Vx,Vy,n gives, where it does not fault. -/
def State.drawn (s : State) (x y n : Nibble) : Display × Bool :=
  drawRows (s.getV x).toNat (s.getV y).toNat (s.bytesAtI n.toNat) (s.disp, false)

theorem exec_drw_of_le {s : State} {n : Nibble} (hin : n.toNat = 0 ∨ s.i.toNat + n.toNat - 1 ≤ 0xFFF)
    (x y : Nibble) :
    exec (.drw x y n) s = .next ((s.advance.setDisp (s.drawn x y n).1).setFlag (s.drawn x y n).2) :=
  if_pos ((s.inMem_rows_iff n).2 (by omega))

/-- `drawRows_spec` at the sprite's rows: n bytes from I on, at the position Vx and Vy give. -/
theorem State.drawn_spec (s : State) (x y n : Nibble) :
    (∀ row < n.toNat, ∀ col < 8, ∀ p q,
      p % 64 = ((s.getV x).toNat + col) % 64 → q % 32 = ((s.getV y).toNat + row) % 32 →
      Display.pixel (s.drawn x y n).1 p q =
        (Display.pixel s.disp p q ^^ spriteBit (Memory.read s.mem (s.i.toNat + row)) col)) ∧
    (∀ p q, (∀ row < n.toNat, ∀ col < 8,
        ¬(p % 64 = ((s.getV x).toNat + col) % 64 ∧ q % 32 = ((s.getV y).toNat + row) % 32)) →
      Display.pixel (s.drawn x y n).1 p q = Display.pixel s.disp p q) ∧
    ((s.drawn x y n).2 = true ↔ ∃ row < n.toNat, ∃ col < 8,
      Display.pixel s.disp ((s.getV x).toNat + col) ((s.getV y).toNat + row) = true ∧
        spriteBit (Memory.read s.mem (s.i.toNat + row)) col = true) := by
  have hlen : (s.bytesAtI n.toNat).length ≤ 32 := by rw [s.bytesAtI_length]; omega
  have hspec := drawRows_spec (s.getV x).toNat (s.bytesAtI n.toNat) (s.getV y).toNat s.disp false hlen
  simpa only [State.drawn, State.bytesAtI_getElem, State.bytesAtI_length, exists_prop, Bool.false_eq_true,
    false_or] using hspec

/-- Settles O58: VF is written after the display, and after both coordinates were read. -/
theorem drawXorsTheSprite : Obligations.DrawXorsTheSprite := by
  intro x y n s hin
  have hexec := exec_drw_of_le hin x y
  obtain ⟨hdrawn, hkept, hcollision⟩ := s.drawn_spec x y n
  have hpixel : ∀ row col, Display.pixel s.disp (((s.getV x).toNat + col) % 64) (((s.getV y).toNat + row) % 32) =
      Display.pixel s.disp ((s.getV x).toNat + col) ((s.getV y).toNat + row) := fun _ _ =>
    Display.pixel_congr _ (Nat.mod_mod _ _) (Nat.mod_mod _ _)
  have hvf : ((s.advance.setDisp (s.drawn x y n).1).setFlag (s.drawn x y n).2).getV 15 =
      flagByte (s.drawn x y n).2 := by rw [State.getV_setFlag, if_pos rfl]
  refine ⟨_, hexec, fun row col hrow hcol => ?drawn, fun p q hp hq hout => ?kept, ?collision,
    fun hnone => ?noCollision, rfl, onlyDestinationsAndTheFlagAreWritten _ _ _ hexec,
    sameOutside_advance_disp_v s (by simp) (by simp) (.inr (by simp))⟩
  case drawn => exact hdrawn row hrow col hcol _ _ (Nat.mod_mod _ _) (Nat.mod_mod _ _)
  case kept =>
    refine hkept p q fun row hrow col hcol hpos => hout row col hrow hcol ?_
    rwa [Nat.mod_eq_of_lt hp, Nat.mod_eq_of_lt hq] at hpos
  case collision =>
    rintro ⟨row, col, hrow, hcol, hset, hbit⟩
    rw [hvf, hcollision.2 ⟨row, hrow, col, hcol, hpixel row col ▸ hset, hbit⟩]
    rfl
  case noCollision =>
    have hclear : (s.drawn x y n).2 = false := Bool.eq_false_iff.2 fun h => by
      obtain ⟨row, hrow, col, hcol, hset, hbit⟩ := hcollision.1 h
      exact Bool.eq_false_iff.1 (hnone row col hrow hcol ((hpixel row col).trans hset)) hbit
    rw [hvf, hclear]
    rfl

end Sys2Proof.Machine
end

section
/-! PROOFS of O17, O18, O59 and O60: the timers and the keypad. A tick is `tickDown` on each timer apart, so n ticks
are n times `tickDown` on each. All frames are read off one: what an update of the pieces these operations write leaves
alone. -/

namespace Sys2Proof.Machine

open Sys2Proof

/-! ### What the timer and keypad operations leave alone -/

/-- The pieces written by a tick, a key event, a timer load or the entry into the key wait are among these six. -/
theorem sameOutside_timers_keypad (s : State) {a : Word} {d b : Byte} {ks : Vector Bool Config.nKeys} {m : Mode}
    {x : Nibble} : sameOutside [.pc, .dt, .st, .keys, .mode, .kwreg] s
      { s with pc := a, dt := d, st := b, keys := ks, mode := m, kwreg := x } := by
  intro p hp
  cases p
  case pc | dt | st | keys | mode | kwreg => simp at hp
  case v | mem => exact fun _ => rfl
  all_goals exact rfl

/-! ### Ticks (R21, R182) -/

theorem toNat_tickDown (b : Byte) : (tickDown b).toNat = b.toNat - 1 := by
  unfold tickDown
  by_cases hpos : b.toNat > 0
  · rw [if_pos hpos]
    exact BitVec.toNat_sub_of_le (BitVec.le_def.2 hpos)
  · rw [if_neg hpos]
    omega

theorem toNat_iterate_tickDown (n : Nat) (b : Byte) : (tickDown^[n] b).toNat = b.toNat - n := by
  induction n with
  | zero => rfl
  | succ n ih => rw [Function.iterate_succ_apply', toNat_tickDown, ih, Nat.sub_sub]

/-- Each timer counts apart from the other. -/
theorem State.iterate_tick (n : Nat) (s : State) :
    State.tick^[n] s = (s.setDt (tickDown^[n] s.dt)).setSt (tickDown^[n] s.st) := by
  induction n with
  | zero => rfl
  | succ n ih =>
    simp only [Function.iterate_succ_apply', ih]
    rfl

/-- Settles O17: n ticks are n times `tickDown` on each timer. -/
theorem ticksCountDownToZero : Obligations.TicksCountDownToZero := fun n s =>
  ⟨_, (State.iterate_tick n s).symm, toNat_iterate_tickDown n s.dt, toNat_iterate_tickDown n s.st,
    (sameOutside_timers_keypad s).of_restored (by simp [sameOn])⟩

/-! ### Key events (R184) -/

/-- A key number names the key of its value modulo 16 (decision D28). -/
theorem eq_maskKey_iff (j : Nibble) (k : Nat) : j = maskKey k ↔ j.toNat = k % 16 := by
  rw [BitVec.toNat_eq, maskKey, BitVec.toNat_ofNat]

theorem State.getKey_setKey_maskKey (s : State) (k : Nat) (j : Nibble) (d : Bool) :
    (s.setKey (maskKey k) d).getKey j = if j.toNat = k % 16 then d else s.getKey j := by
  simp only [State.getKey_setKey, eq_maskKey_iff]

theorem sameOutside_setKey (s : State) (k : Nibble) (d : Bool) : sameOutside [.keys] s (s.setKey k d) :=
  (sameOutside_timers_keypad s).of_restored (by simp [sameOn])

/-- Settles O18: both events set the level of the key the masked number names. -/
theorem keyEventsSetOneKey : Obligations.KeyEventsSetOneKey := fun k s =>
  ⟨fun j => s.getKey_setKey_maskKey k j true, fun j => s.getKey_setKey_maskKey k j false,
    sameOutside_setKey s _ true, sameOutside_setKey s _ false⟩

/-! ### Timer loads, and the entry into the key wait (R176 to R179) -/

/-- Settles O59: the timer is read and written after the advance, which does not touch it. -/
theorem delayTimerMoves : Obligations.DelayTimerMoves := fun x s =>
  ⟨decode_encode (i := .ldVxDt x) rfl, decode_encode (i := .ldDtVx x) rfl, exec_setV rfl,
    _, rfl, rfl, toNat_tickDown (s.getV x), rfl, (sameOutside_timers_keypad s).of_restored (by simp [sameOn])⟩

/-- Settles O60: `sound_on` tests the value just written, and the key wait is entered without looking at KEY. -/
theorem soundTimerAndKeyWaitEntry : Obligations.SoundTimerAndKeyWaitEntry := fun _ s =>
  ⟨⟨_, rfl, rfl, decide_eq_true_iff, rfl, (sameOutside_timers_keypad s).of_restored (by simp [sameOn])⟩,
    _, rfl, rfl, rfl, rfl, (sameOutside_timers_keypad s).of_restored (by simp [sameOn])⟩

end Sys2Proof.Machine
end

section
/-! PROOFS of O23, O30, O38 and O15: diagnostics, faults and program loading. Only the two no-ops report; the fault a
step enters is the fetch's own or the one `faultOf` tells of the fetched instruction (O31); what a loaded program leaves
in memory is a run of writes. -/

namespace Sys2Proof.Machine

open Sys2Proof

/-! ### Diagnostics (R192 to R195) -/

/-- The row of the opcode table whose words a diagnostic is about (R193, R194). -/
def reportedRow : DiagnosticKind → Nat
  | .unsupportedSys => 35
  | .unmappedOpcode => 36

/-- What reports is a no-op: it records its address and word, and only advances PC. -/
theorem reportOf_eq_some {i : Instr} {s : State} {d : Diagnostic} (h : reportOf i s = some d) :
    d.addr = s.pc ∧ d.word = encode i ∧ i.row = reportedRow d.kind ∧ exec i s = .next s.advance := by
  cases i
  case sys | unmapped => cases h; exact ⟨rfl, rfl, rfl, rfl⟩
  all_goals cases h

/-- The 34 forms end at row 34; both classes past it report. -/
theorem exists_reportOf_eq_some {i : Instr} (h : 35 ≤ i.row) (s : State) : ∃ d, reportOf i s = some d := by
  cases i
  case sys | unmapped => exact ⟨_, rfl⟩
  all_goals exact absurd h (by simp [Instr.row])

theorem stepReport_running {s : State} (hm : s.mode = .running) (hpc : s.pc.toNat ≤ 0xFFE) :
    stepReport s = reportOf s.fetched s := by
  simp [stepReport, hm, s.canFetch_iff.2 hpc]

/-- A step that reports has fetched, and the report is that of the instruction it fetched. -/
theorem stepReport_eq_some {s : State} {d : Diagnostic} (h : stepReport s = some d) :
    s.mode = .running ∧ s.pc.toNat ≤ 0xFFE ∧ reportOf s.fetched s = some d := by
  have hm : s.mode = .running := by
    by_contra hm
    simp [stepReport_of_ne_running hm] at h
  have hpc : s.pc.toNat ≤ 0xFFE := by
    by_contra hpc
    simp [stepReport_of_lt_pc (Nat.not_le.1 hpc)] at h
  exact ⟨hm, hpc, (stepReport_running hm hpc).symm.trans h⟩

/-- The word of the fetched instruction is the word at PC (R66). -/
theorem State.encode_fetched (s : State) : encode s.fetched = Memory.readWord s.mem s.pc.toNat := encode_decode _

/-- Settles O23: a report is that of the fetched instruction, whose row is the first its word matches (O2). -/
theorem onlySysAndUnmappedReport : Obligations.OnlySysAndUnmappedReport := by
  refine fun s => ⟨fun d hd => ?reported, fun hm hpc hrow => ?reports⟩
  case reported =>
    obtain ⟨hm, hpc, hreport⟩ := stepReport_eq_some hd
    obtain ⟨haddr, hword, hrow, hexec⟩ := reportOf_eq_some hreport
    rw [s.encode_fetched] at hword
    have hfirst : firstRow d.word = some (reportedRow d.kind) := by
      rw [hword, firstRow_eq_row_decode, ← hrow]
      rfl
    exact ⟨hm, hpc, haddr, hword, hfirst, _, (cycle_running hm hpc).trans hexec, rfl, sameOutside_setPc s _⟩
  case reports =>
    rw [stepReport_running hm hpc]
    exact exists_reportOf_eq_some hrow s

/-- Settles O38: a word of R69 is the word of a well-formed UNMAPPED instruction, which only advances PC. -/
theorem unmappedIsAReportingNoOp : Obligations.UnmappedIsAReportingNoOp := fun w s hwf =>
  ⟨decode_encode (i := .unmapped w) hwf, _, rfl, rfl, sameOutside_setPc s _, rfl⟩

/-! ### Faults (R197, R198) -/

/-- No instruction raises the fault of the fetch. -/
theorem faultOf_ne_fetchBounds (i : Instr) (s : State) : faultOf i s ≠ .fetchBounds := by
  cases i
  case ret | call | drw | ldB | storeRegs | loadRegs => simp only [faultOf]; split <;> decide
  all_goals exact nofun

/-- An instruction that enters Faulted raised the fault `faultOf` tells (O31). -/
theorem exec_enters_faulted {i : Instr} {s t : State} (hm : s.mode ≠ .faulted) (hexec : exec i s = .next t)
    (ht : t.mode = .faulted) :
    faultOf i s ≠ .none ∧ t.fault = ⟨faultOf i s, s.pc, encode i⟩ ∧ sameOutside [.mode, .fault] s t := by
  obtain ⟨hraises, hkeeps⟩ := instructionsFaultExactlyWhen i s
  have hfault : faultOf i s ≠ .none := fun hnone => by
    obtain ⟨-, hmode⟩ := hkeeps hnone t hexec
    exact hm (hmode ht)
  obtain ⟨u, hu, -, hrecord, hframe⟩ := hraises hfault
  cases hexec.symm.trans hu
  exact ⟨hfault, hrecord, hframe⟩

/-- Settles O30: of the four cases of a step, the fetched instruction and the fetch past 0xFFE are the two that
leave Running for Faulted. -/
theorem faultsArePrecise : Obligations.FaultsArePrecise := by
  intro s t hm hstep ht
  rcases cycle_cases hstep with ⟨hm', -⟩ | ⟨hm', -⟩ | ⟨-, hpc, hexec⟩ | ⟨-, hpc, rfl⟩
  · cases hm.symm.trans hm'
  · cases hm.symm.trans hm'
  · obtain ⟨hfault, hrecord, hframe⟩ := exec_enters_faulted (by simp [hm]) hexec ht
    rw [hrecord]
    exact ⟨hframe, rfl, hfault, .inr ⟨faultOf_ne_fetchBounds _ _, s.encode_fetched, hpc⟩⟩
  · exact ⟨sameOutside_setMode_setFault _ _ _, rfl, by simp, .inl ⟨rfl, rfl, hpc⟩⟩

/-! ### Program loading (R218) -/

theorem loadProgram_of_le {bytes : List Byte} (hlen : bytes.length ≤ 3584) (s : State) :
    loadProgram bytes s = .next (s.loadBytes bytes) := if_neg (Nat.not_lt.2 hlen)

/-- Byte `k` of a run of writes, read back. -/
theorem Memory.read_writeBytes_add (m : Memory) (a : Nat) {bs : List Byte} {k : Nat} (hk : k < bs.length) :
    Memory.read (Memory.writeBytes m a bs) (a + k) = bs[k] := by
  have hblock : a ≤ a + k ∧ a + k - a < bs.length := by omega
  rw [Memory.read_writeBytes, dif_pos hblock]
  simp only [Nat.add_sub_cancel_left]

/-- A run of writes leaves every byte before it and past it. -/
theorem Memory.read_writeBytes_outside (m : Memory) {a c : Nat} {bs : List Byte} (hc : c < a ∨ a + bs.length ≤ c) :
    Memory.read (Memory.writeBytes m a bs) c = Memory.read m c := by
  rw [Memory.read_writeBytes, dif_neg (by omega)]

theorem sameOutside_setMem (s : State) (m : Memory) : sameOutside [.mem] s (s.setMem m) :=
  (sameOutside_setMem_setMode s m s.mode).of_restored (by simp [sameOn])

/-- Settles O15: a program that fits is one run of writes from 0x200 on. -/
theorem loadProgramCopiesBytes : Obligations.LoadProgramCopiesBytes := fun _ s =>
  ⟨fun hlen => ⟨_, loadProgram_of_le hlen s, sameOutside_setMem s _,
      fun _ hk => Memory.read_writeBytes_add s.mem Config.origin hk,
      fun _ ha => Memory.read_writeBytes_outside s.mem ha⟩,
    fun hlen => if_pos hlen⟩

end Sys2Proof.Machine
end
